-- ==== Sys2Proof/Word.lean ====
section
/-! DEFINITION. The word types of the block: one command or response word, one bit, one position. -/

namespace Sys2Proof

/-- A command or a response (`CMDW`, `RSPW` = 32; 00_scope.md R5). -/
abbrev Word := BitVec 32

/-- One bit: an element of the frame buffer or of the payload buffer, or a one-bit register; `true` is 1
(10_state.md R13). -/
abbrev Bit := Bool

/-- A position, a length or an index as software sees it (`POSW` = 24; 00_scope.md R5). -/
abbrev Pos := BitVec 24

end Sys2Proof
end

