-- ==== Sys2Proof/Syntax.lean ====
section
/-! DEFINITION. The commands of the block: one constructor for each row of spec/opcode_table.json. -/

namespace Sys2Proof

/-- A command with its operands (30_encoding.md R51, R52). Every operand is the unsigned value of its field. -/
inductive Instr where
  /-- NOP (40_frame_load.md R65). -/
  | nop
  /-- CLR, begin a new frame (R66). -/
  | clr
  /-- PUSHB b, append one bit (R67). -/
  | pushb (b : Bit)
  /-- PUSHC c, append the bit a symbol stands for (R69). -/
  | pushc (c : BitVec 8)
  /-- PUSHN n, v, append the low n bits of v (R70). -/
  | pushn (n : BitVec 5) (v : BitVec 16)
  /-- DECH m, Hamming decode: m = 1 SECDED, m = 0 plain (41_hamming.md R75). -/
  | dech (m : Bit)
  /-- DECF, Fletcher-16 verify (42_fletcher.md R100). -/
  | decf
  /-- RDS r, read a status or diagnostic register (43_readout.md R114). -/
  | rds (r : Pos)
  /-- RDF p, read the frame bit at a 1-indexed position (R116). -/
  | rdf (p : Pos)
  /-- RDP k, read a payload bit at a 0-indexed index (R117). -/
  | rdp (k : Pos)
  /-- RDE k, read an error-report entry at a 0-indexed index (R118). -/
  | rde (k : Pos)
  deriving DecidableEq, Repr

end Sys2Proof
end

