-- ==== Sys2Proof/WellFormed.lean ====
section
/-! DEFINITION. Which instructions have an encoding the block accepts. -/

namespace Sys2Proof

/-- The operand values an accepted command word can hold. Only PUSHN restricts its operands beyond their widths:
1 ≤ n ≤ 16 and v < 2^n (30_encoding.md R52, R54). The range of an index operand depends on the state and is no
part of the encoding (R53, test 3). -/
def Instr.wellFormed : Instr → Bool
  | .pushn n v => decide (1 ≤ n.toNat ∧ n.toNat ≤ 16 ∧ v.toNat < 2 ^ n.toNat)
  | .nop | .clr | .decf => true
  | .pushb _ | .dech _ => true
  | .pushc _ => true
  | .rds _ | .rdf _ | .rdp _ | .rde _ => true

end Sys2Proof
end

