-- ==== Sys2Proof/Decode.lean ====
section
/-! DEFINITION. Decoding a command word (30_encoding.md R50 to R55), and the encoder written from the same tables. -/

namespace Sys2Proof

/-- Why a command is refused without touching the state (60_exceptions.md R124). -/
inductive CmdError where
  /-- C_ILLEGAL: the opcode is not defined. -/
  | illegal
  /-- C_RESERVED: a reserved operand bit is set, or a PUSHN operand is not legal. -/
  | reserved
  /-- C_RANGE: an index operand addresses nothing. -/
  | range
  deriving DecidableEq, Repr

/-- The numbers of the command errors (60_exceptions.md R124). -/
def CmdError.code : CmdError → BitVec 4
  | .illegal => 1
  | .reserved => 2
  | .range => 3

/-- The eleven defined opcodes (30_encoding.md R51). -/
inductive Opcode where
  | nop | clr | pushb | pushc | pushn | dech | decf | rds | rdf | rdp | rde
  deriving DecidableEq, Repr

/-- The five operand formats (30_encoding.md R50). -/
inductive Format where
  /-- No operand. -/
  | z
  /-- One bit. -/
  | b
  /-- A symbol code. -/
  | c
  /-- A count and a bit string. -/
  | n
  /-- An index. -/
  | i
  deriving DecidableEq, Repr

/-- The opcode map (30_encoding.md R51). -/
def Opcode.byte : Opcode → BitVec 8
  | .nop => 0x00
  | .clr => 0x01
  | .pushb => 0x02
  | .pushc => 0x03
  | .pushn => 0x04
  | .dech => 0x10
  | .decf => 0x11
  | .rds => 0x20
  | .rdf => 0x21
  | .rdp => 0x22
  | .rde => 0x23

/-- All opcodes, in the table's order. -/
def Opcode.all : List Opcode := [.nop, .clr, .pushb, .pushc, .pushn, .dech, .decf, .rds, .rdf, .rdp, .rde]

/-- The format of each opcode (30_encoding.md R51). -/
def Opcode.format : Opcode → Format
  | .nop | .clr | .decf => .z
  | .pushb | .dech => .b
  | .pushc => .c
  | .pushn => .n
  | .rds | .rdf | .rdp | .rde => .i

/-- The operand bits that must be zero in each format (30_encoding.md R50). -/
def Format.reserved : Format → BitVec 24
  | .z => 0xFFFFFF
  | .b => 0xFFFFFE
  | .c => 0xFFFF00
  | .n => 0xE00000
  | .i => 0x000000

/-- The opcode a byte names, if any: the other 245 bytes are illegal (30_encoding.md R51, R55). -/
def opcodeOf (op : BitVec 8) : Option Opcode := Opcode.all.find? fun o => o.byte == op

/-- `op = cmd[31:24]` (30_encoding.md R50). -/
def opField (w : Word) : BitVec 8 := w.extractLsb' 24 8

/-- `arg = cmd[23:0]` (30_encoding.md R50). -/
def argField (w : Word) : BitVec 24 := w.extractLsb' 0 24

/-- The operands PUSHN accepts: 1 ≤ n ≤ 16 and v < 2^n (30_encoding.md R52, R53). -/
def pushnLegal (n : BitVec 5) (v : BitVec 16) : Bool :=
  decide (1 ≤ n.toNat ∧ n.toNat ≤ 16 ∧ v.toNat < 2 ^ n.toNat)

/-- The instruction an opcode makes of its operand field (30_encoding.md R50, R52); the reserved bits are tested
before this, by `decode`. -/
def operands (o : Opcode) (arg : BitVec 24) : Except CmdError Instr :=
  match o with
  | .nop => .ok .nop
  | .clr => .ok .clr
  | .pushb => .ok (.pushb (arg.getLsbD 0))
  | .pushc => .ok (.pushc (arg.extractLsb' 0 8))
  | .pushn =>
    let n := arg.extractLsb' 16 5
    let v := arg.extractLsb' 0 16
    if pushnLegal n v then .ok (.pushn n v) else .error .reserved
  | .dech => .ok (.dech (arg.getLsbD 0))
  | .decf => .ok .decf
  | .rds => .ok (.rds arg)
  | .rdf => .ok (.rdf arg)
  | .rdp => .ok (.rdp arg)
  | .rde => .ok (.rde arg)

/-- Decoding of a command word, total, the first failing test deciding (30_encoding.md R53, tests 1 and 2; test 3
looks at the state and stands in the read commands' meanings). -/
def decode (w : Word) : Except CmdError Instr :=
  match opcodeOf (opField w) with
  | none => .error .illegal
  | some o =>
    if argField w &&& o.format.reserved = 0 then operands o (argField w) else .error .reserved

/-- The opcode of an instruction. -/
def Instr.opcode : Instr → Opcode
  | .nop => .nop
  | .clr => .clr
  | .pushb _ => .pushb
  | .pushc _ => .pushc
  | .pushn _ _ => .pushn
  | .dech _ => .dech
  | .decf => .decf
  | .rds _ => .rds
  | .rdf _ => .rdf
  | .rdp _ => .rdp
  | .rde _ => .rde

/-- The operand field of an instruction, its reserved bits zero (30_encoding.md R50). -/
def Instr.arg : Instr → BitVec 24
  | .nop | .clr | .decf => 0
  | .pushb b => 0#23 ++ BitVec.ofBool b
  | .pushc c => 0#16 ++ c
  | .pushn n v => 0#3 ++ n ++ v
  | .dech m => 0#23 ++ BitVec.ofBool m
  | .rds r => r
  | .rdf p => p
  | .rdp k => k
  | .rde k => k

/-- The command word of an instruction: the opcode over the operand field (30_encoding.md R50). -/
def encode (i : Instr) : Word := i.opcode.byte ++ i.arg

/-- The match value of a row of the table: the opcode over zeros (30_encoding.md R54). -/
def Opcode.matchWord (o : Opcode) : Word := o.byte ++ 0#24

/-- The mask of a row of the table: the opcode's bits and the format's reserved bits (30_encoding.md R54). -/
def Opcode.maskWord (o : Opcode) : Word := 0xFF#8 ++ o.format.reserved

/-- What the decoder reads from an instruction whose bits are `w`, bit 0 the least significant bit of the one
command word; every command is one 32-bit word (30_encoding.md R50), so the bits above `nbits` are zero. -/
def decodeTableWord (nbits w : Nat) : Option Instr :=
  match decode (BitVec.ofNat 32 (w % 2 ^ nbits)) with
  | .ok i => some i
  | .error _ => none

end Sys2Proof
end

