-- ==== Sys2Proof/Config.lean ====
section
/-! DEFINITION. What the spec leaves to an implementation: the capacity NMAX and the cycles a command takes. -/

namespace Sys2Proof.Config

/-- The parameters of an implementation. The only open one is `NMAX`, with 16 ≤ NMAX ≤ 2^24 − 1 (00_scope.md R5;
92_eei_decisions.md D5). It is held as what it exceeds 16 by, so that both bounds are part of the type. -/
structure Params where
  /-- `NMAX − 16`, at most 2^24 − 17. -/
  spare : Fin 16777200
  deriving DecidableEq, Repr, Inhabited

/-- `NMAX`: the capacity of the frame buffer in bits (00_scope.md R5). -/
def Params.nmax (p : Params) : Nat := p.spare.val + 16

/-- The parameters of the block this machine is: a free value without a body (log entry 1; DESIGN CHOICE, safe). -/
opaque params : Params

/-- How many rising edges after the one that accepts a command `rsp_valid` rises: a free value without a body, "finite,
unspecified, and may differ between commands, between frames and between implementations" (70_reset_and_hazards.md R146).
It may depend on how many commands were accepted before, on the command word and on the input-side state it finds; on
nothing else, so that two commands which agree in all of these take equally many edges: the spec does not say so, it is
the model's choice. Whether it may be 0, that is whether `rsp_valid` may rise on the accepting edge itself, the spec
leaves open; the model leaves it open too, 0 being a value like any other (log entry 6; DESIGN CHOICE, safe). Only the
pin level reads it. -/
opaque latency (accepted : Nat) (w : Word) (fb : List Bit) (inv ovf : Bit) : Nat

end Sys2Proof.Config
end

