-- ==== Sys2Proof/Machine/State.lean ====
section
/-! DEFINITION. The state of the block (10_state.md R13), the host's side of the command port, and reset. -/

namespace Sys2Proof.Machine

/-- The status, or class, of the last decode (10_state.md R21). The reserved codes 6, 7, 10 and 11 are never
produced and have no constructor (log entry 8). -/
inductive Status where
  /-- ST_NONE, code 0: no decode result is held. -/
  | none
  /-- H_NOERR, code 1. -/
  | hNoErr
  /-- H_GPERR, code 2: a single error in the global parity bit. -/
  | hGpErr
  /-- H_CORR, code 3: one bit of the code block was corrected. -/
  | hCorr
  /-- H_DBL, code 4: an even number of errors, uncorrectable. -/
  | hDbl
  /-- H_OOR, code 5: the syndrome names no position of the code block. -/
  | hOor
  /-- F_OK, code 8. -/
  | fOk
  /-- F_MISMATCH, code 9. -/
  | fMismatch
  /-- E_INVALID, code 12: a non-binary symbol was pushed. -/
  | eInvalid
  /-- E_OVF, code 13: the frame did not fit the buffer. -/
  | eOvf
  /-- E_EMPTY, code 14: the frame is empty. -/
  | eEmpty
  /-- E_SHORT, code 15: the frame is shorter than 16 bits. -/
  | eShort
  deriving DecidableEq, Repr

/-- One entry of the error report: the bit as received and its 1-indexed position (10_state.md R30). -/
structure ErrEntry where
  v   : Bit
  pos : Pos
  deriving DecidableEq, Repr

/-- The input-side state (10_state.md R13, R16 to R19). `LEN` is the length of `fb`. -/
structure Frame where
  /-- `FB`: the bits in arrival order; the element at index i is position i + 1. -/
  fb  : List Bit
  /-- `INV`: sticky, a non-binary symbol was pushed. -/
  inv : Bit
  /-- `OVF`: sticky, a bit was pushed into a full buffer. -/
  ovf : Bit
  deriving DecidableEq, Repr

/-- The result state (10_state.md R22). `PLEN` and `ELEN` are the lengths of `pb` and `er`. -/
structure Result where
  /-- `ST` (R21). -/
  st   : Status
  /-- `ALG`: 0 Hamming, 1 Fletcher-16 (R23). -/
  alg  : Bit
  /-- `MODE`: the operand of the last DECH (R23). -/
  mode : Bit
  /-- `SYN` (R24). -/
  syn  : Pos
  /-- `GPC`, globalComputed (R25). -/
  gpc  : Bit
  /-- `GPB`, the received global parity bit (R25). -/
  gpb  : Bit
  /-- `CPOS`, the corrected position, 0 for none (R26). -/
  cpos : Pos
  /-- `S1` (R27). -/
  s1   : BitVec 8
  /-- `S2` (R27). -/
  s2   : BitVec 8
  /-- `RXCK` (R28). -/
  rxck : BitVec 16
  /-- `PB`, the payload buffer (R29). -/
  pb   : List Bit
  /-- `ER`, the error-report buffer (R30). -/
  er   : List ErrEntry
  deriving DecidableEq, Repr

/-- What the host does at a step (00_scope.md R3, R4; 70_reset_and_hazards.md R140, R149). -/
inductive HostAction where
  /-- The host presents nothing. -/
  | idle
  /-- The host presents a command word, and takes its response. -/
  | command (w : Word)
  /-- The host asserts `rst` between two commands. -/
  | reset
  /-- The host asserts `rst` after the command word was accepted and before its response was delivered. -/
  | resetDuring (w : Word)
  deriving DecidableEq, Repr

/-- The machine: the block's state (10_state.md R13) with its parameters, and the host's side of the port. The last
two fields are the model's own (log entries 2 and 3): the spec counts neither as state of the block. -/
structure State where
  /-- `NMAX` (00_scope.md R5); no step changes it. -/
  params    : Config.Params
  /-- `(FB, INV, OVF)`. -/
  frame     : Frame
  /-- The result state. -/
  result    : Result
  /-- What the host does next, the next action first. -/
  inputs    : List HostAction
  /-- The response words delivered so far, oldest first. -/
  responses : List Word
  deriving DecidableEq, Repr

/-- Faults: none. "The block raises no exception, takes no trap" (60_exceptions.md R121), so the type is empty and
no step can answer a fault (log entry 10). -/
inductive Fault where
  deriving DecidableEq, Repr

/-- Refusals. -/
inductive Refusal where
  /-- Raised only by an arm of `exec` whose instruction has no meaning yet (safe: the run stops). No arm does. -/
  | notModelled (mnemonic : String)
  deriving DecidableEq, Repr

/-- The empty frame buffer with both flags clear (10_state.md R34). -/
def Frame.empty : Frame := { fb := [], inv := false, ovf := false }

/-- The result state after reset, CLR or a push: all registers 0, both buffers empty (10_state.md R22, R34). -/
def Result.clear : Result :=
  { st := .none, alg := false, mode := false, syn := 0, gpc := false, gpb := false, cpos := 0,
    s1 := 0, s2 := 0, rxck := 0, pb := [], er := [] }

/-- The machine right after reset (10_state.md R34; 70_reset_and_hazards.md R139): every field of the block at the
value the spec states; nothing presented by the host and nothing answered (log entries 2 to 4); `NMAX` free. -/
def State.reset : State :=
  { params := Config.params, frame := Frame.empty, result := Result.clear, inputs := [], responses := [] }

end Sys2Proof.Machine
end

