-- ==== Sys2Proof/Machine/Ops.lean ====
section
/-! DEFINITION. The named operations over the state: the frame buffer and its bit numbering, ClearResult and Append,
reset, the response port, the rejection of a command, and a decode failure. -/

namespace Sys2Proof.Machine

/-! ### Updates of one part of the state -/

/-- Replace the input-side state. -/
def State.withFrame (s : State) (f : Frame) : State := { s with frame := f }

/-- Replace the whole result state. -/
def State.withResult (s : State) (r : Result) : State := { s with result := r }

/-- Replace what the host does next. -/
def State.withInputs (s : State) (is : List HostAction) : State := { s with inputs := is }

/-- Deliver one response word to the host (30_encoding.md R56). -/
def State.respond (s : State) (w : Word) : State := { s with responses := s.responses ++ [w] }

/-! ### The frame as a numbered sequence of bits -/

/-- `LEN`, the source's N (10_state.md R17). -/
def Frame.len (f : Frame) : Nat := f.fb.length

/-- `FB[i]`, positions from 1 (00_scope.md R6). Outside 1..LEN, which no rule reads as a frame bit, it is 0; the
Fletcher padding reads that 0 on purpose (20_memory.md R40; log entry 11). -/
def bitAt (bits : List Bit) (i : Nat) : Bit :=
  match i with
  | 0 => false
  | k + 1 => bits.getD k false

/-- The positions 1..M in ascending order. -/
def positions (M : Nat) : List Nat := List.range' 1 M

/-- The value of the `w` positions from `a` on, position `a` most significant (20_memory.md R37 (b)):
the sum of `FB[a+k] << (w−1−k)`. -/
def fieldValue (bits : List Bit) (a w : Nat) : Nat :=
  ((List.range w).map fun k => (bitAt bits (a + k)).toNat <<< (w - 1 - k)).sum

/-- XOR of a sequence of bits; 0 for the empty sequence (00_scope.md R6). -/
def xorAll (bits : List Bit) : Bit := bits.foldl Bool.xor false

/-- `code` with the bit at position `e` flipped and every other position equal (41_hamming.md R85). -/
def flipBit (bits : List Bit) (e : Nat) : List Bit :=
  match e with
  | 0 => bits
  | k + 1 => bits.modify k (!·)

/-! ### Loading -/

/-- `ClearResult()` (40_frame_load.md R68). -/
def State.clearResult (s : State) : State := s.withResult Result.clear

/-- `Append(b)` on the input-side state of a block of capacity `nmax`: store the bit, or drop it and set OVF
(40_frame_load.md R68; 10_state.md R19). -/
def Frame.append (f : Frame) (nmax : Nat) (b : Bit) : Frame :=
  if f.len < nmax then { f with fb := f.fb ++ [b] } else { f with ovf := true }

/-- `Append(b)` (40_frame_load.md R68). -/
def State.append (s : State) (b : Bit) : State := s.withFrame (s.frame.append s.params.nmax b)

/-- `Append` of each bit in turn (40_frame_load.md R70). -/
def State.appendAll (s : State) (bs : List Bit) : State := bs.foldl State.append s

/-- The block at its reset state, the host's side of the port as it was: a reset is neither a command nor a response
(10_state.md R34; 70_reset_and_hazards.md R139). Also the effect of CLR (40_frame_load.md R66). -/
def State.clearBlock (s : State) : State := (s.withFrame Frame.empty).withResult Result.clear

/-! ### Answering a command -/

/-- What a command's meaning answers. -/
abbrev Answer := Host.Outcome State Fault Refusal

/-- The response of an executed command with data `d` < 2^25: `ok(d)` (00_scope.md R6; 30_encoding.md R56). -/
def okWord (d : BitVec 25) : Word := d.setWidth 32

/-- The response of a rejected command: `0x8000_0000 + (c << 24)` (30_encoding.md R56). -/
def rejectWord (c : CmdError) : Word := 0x80000000#32 + (c.code.setWidth 32 <<< 24)

/-- `ok(d)`: the command executed and returns `d`. -/
def State.ok (s : State) (d : BitVec 25) : Answer := .next (s.respond (okWord d))

/-- `reject(c)`: the command error, this block's one counterpart of taking an exception. The response says why and no
state of the block changes (60_exceptions.md R121, R123). -/
def State.reject (s : State) (c : CmdError) : Answer := .next (s.respond (rejectWord c))

/-! ### A decode failure -/

/-- The result state of a decode failure: the status, `ALG` and `MODE` record the command, everything else is 0 or
empty (60_exceptions.md R127 to R130; 92_eei_decisions.md D26). -/
def Result.failure (st : Status) (alg mode : Bit) : Result :=
  { Result.clear with st := st, alg := alg, mode := mode }

end Sys2Proof.Machine
end

