-- ==== Sys2Proof/Machine/Operands.lean ====
section
/-! DEFINITION. The operand forms: a symbol code, a bit string, a register index, a position, a buffer index. -/

namespace Sys2Proof.Machine

/-- `CH0`, the code of the character '0' (00_scope.md R5; 92_eei_decisions.md D7). -/
def ch0 : BitVec 8 := 0x30

/-- `CH1`, the code of the character '1' (00_scope.md R5; 92_eei_decisions.md D7). -/
def ch1 : BitVec 8 := 0x31

/-- The bit a symbol code stands for, if any (40_frame_load.md R69). -/
def symbolBit (c : BitVec 8) : Option Bit :=
  if c = ch0 then some false else if c = ch1 then some true else none

/-- The bits PUSHN appends, in order: `v[n−1], …, v[0]` (30_encoding.md R52; 40_frame_load.md R70). -/
def pushBits (n : BitVec 5) (v : BitVec 16) : List Bit :=
  (List.range n.toNat).map fun k => v.getLsbD (n.toNat - 1 - k)

/-- The registers RDS reads (10_state.md R32). -/
inductive Register where
  | cap | len | flags | status | syn | par | cpos | plen | elen | calc | rxck
  deriving DecidableEq, Repr

/-- The register an RDS index names; indices from 11 on are undefined (10_state.md R32; 20_memory.md R44). -/
def registerOf (r : Pos) : Option Register :=
  match r.toNat with
  | 0 => some .cap
  | 1 => some .len
  | 2 => some .flags
  | 3 => some .status
  | 4 => some .syn
  | 5 => some .par
  | 6 => some .cpos
  | 7 => some .plen
  | 8 => some .elen
  | 9 => some .calc
  | 10 => some .rxck
  | _ => none

/-- `FB[p]` for a position operand, if 1 ≤ p ≤ LEN (20_memory.md R42; 43_readout.md R116). -/
def frameBit (f : Frame) (p : Pos) : Option Bit :=
  if 1 ≤ p.toNat ∧ p.toNat ≤ f.len then some (bitAt f.fb p.toNat) else none

/-- `PB[k]`, if k < PLEN (20_memory.md R42; 43_readout.md R117). -/
def payloadBit (r : Result) (k : Pos) : Option Bit := r.pb[k.toNat]?

/-- `ER[k]`, if k < ELEN (20_memory.md R42; 43_readout.md R118). -/
def reportEntry (r : Result) (k : Pos) : Option ErrEntry := r.er[k.toNat]?

end Sys2Proof.Machine
end

