-- ==== Sys2Proof/Machine/Flags.lean ====
section
/-! DEFINITION. The status codes and the register views: FLAGS, STATUS, PAR, CALC and the plain registers, each 24
bits wide with its unused bits 0 (10_state.md R20 to R32). The block has no condition codes (R20). -/

namespace Sys2Proof.Machine

/-- The 4-bit code of a status (10_state.md R21). -/
def Status.code : Status → BitVec 4
  | .none => 0
  | .hNoErr => 1
  | .hGpErr => 2
  | .hCorr => 3
  | .hDbl => 4
  | .hOor => 5
  | .fOk => 8
  | .fMismatch => 9
  | .eInvalid => 12
  | .eOvf => 13
  | .eEmpty => 14
  | .eShort => 15

/-- A bit as a 24-bit number, so that views can be written as the spec writes them. -/
def bitView (b : Bit) : BitVec 24 := (BitVec.ofBool b).setWidth 24

/-- `FLAGS = INV + (OVF << 1)` (10_state.md R20). -/
def flagsView (f : Frame) : BitVec 24 := bitView f.inv + (bitView f.ovf <<< 1)

/-- `STATUS = ST + (ALG << 4) + (MODE << 5)` (10_state.md R23). -/
def statusView (r : Result) : BitVec 24 :=
  r.st.code.setWidth 24 + (bitView r.alg <<< 4) + (bitView r.mode <<< 5)

/-- `PAR = GPC + (GPB << 1)` (10_state.md R25). -/
def parView (r : Result) : BitVec 24 := bitView r.gpc + (bitView r.gpb <<< 1)

/-- The calculated checksum `(S2 << 8) + S1`, 16 bits (10_state.md R27; 42_fletcher.md R107). -/
def calculated (r : Result) : BitVec 16 := (r.s2.setWidth 16 <<< 8) + r.s1.setWidth 16

/-- `CALC`, bits 23:16 zero (10_state.md R27). -/
def calcView (r : Result) : BitVec 24 := (calculated r).setWidth 24

/-- A length as a 24-bit view (10_state.md R17; log entry 12). -/
def lengthView (n : Nat) : BitVec 24 := BitVec.ofNat 24 n

/-- `LEN` (10_state.md R17). -/
def lenView (f : Frame) : BitVec 24 := lengthView f.len

/-- The 24-bit view of a register (10_state.md R32; 43_readout.md R114). -/
def State.view (s : State) : Register → BitVec 24
  | .cap => lengthView s.params.nmax
  | .len => lenView s.frame
  | .flags => flagsView s.frame
  | .status => statusView s.result
  | .syn => s.result.syn
  | .par => parView s.result
  | .cpos => s.result.cpos
  | .plen => lengthView s.result.pb.length
  | .elen => lengthView s.result.er.length
  | .calc => calcView s.result
  | .rxck => s.result.rxck.setWidth 24

/-- Answer with a 24-bit datum; `rsp[24]` is 0 (30_encoding.md R56). -/
def State.okData (s : State) (d : BitVec 24) : Answer := s.ok (d.setWidth 25)

end Sys2Proof.Machine
end

