-- ==== Sys2Proof/Machine/Fletcher.lean ====
section
/-! DEFINITION. DECF: the Fletcher-16 dual-accumulator checksum verifier (42_fletcher.md). -/

namespace Sys2Proof.Machine

/-- `FMOD` (00_scope.md R5). -/
def fmod : Nat := 255

/-- The data bits: all but the last 16 (R102). -/
def dataBits (fb : List Bit) : List Bit := fb.take (fb.length - 16)

/-- `ReceivedChecksum(N)`: the last 16 positions as a number, position N−15 most significant (R103). -/
def receivedChecksum (fb : List Bit) : Nat := fieldValue fb (fb.length - 15) 16

/-- The data bytes: byte t is positions 8t+1..8t+8 of the data bits, most significant first, a position beyond the
data counting as 0 (R104; 20_memory.md R40, R41). -/
def dataBytes (data : List Bit) : List Nat :=
  (List.range ((data.length + 7) / 8)).map fun t => fieldValue data (8 * t + 1) 8

/-- The two accumulators: `sum1`, `sum2`. -/
structure Sums where
  s1 : Nat
  s2 : Nat
  deriving DecidableEq, Repr

/-- One step of the accumulators: `sum1` first, then `sum2` with the new `sum1`, exact modulo 255 (R105, R106). -/
def fletcherStep (a : Sums) (b : Nat) : Sums :=
  { s1 := (a.s1 + b) % fmod, s2 := (a.s2 + (a.s1 + b) % fmod) % fmod }

/-- The accumulators after all bytes, from 0 (R105). -/
def sums (bytes : List Nat) : Sums := bytes.foldl fletcherStep { s1 := 0, s2 := 0 }

/-- The result registers of the two checksums before the comparison (R103, R105, R110). -/
def fletcherSums (fb : List Bit) : Result :=
  let a := sums (dataBytes (dataBits fb))
  { Result.clear with
    alg := true
    s1 := BitVec.ofNat 8 a.s1
    s2 := BitVec.ofNat 8 a.s2
    rxck := BitVec.ofNat 16 (receivedChecksum fb) }

/-- The Fletcher decode of a frame that passed the pre-checks: release the data bits on a match, withhold them on a
mismatch (R107 to R111). -/
def fletcherDecode (fb : List Bit) : Result :=
  let r := fletcherSums fb
  if calculated r = r.rxck then { r with st := .fOk, pb := dataBits fb } else { r with st := .fMismatch }

/-- The result state DECF writes, a function of the input-side state alone, the pre-checks in their order of priority
(R100, R110; 60_exceptions.md R126). -/
def fletcherResult (f : Frame) : Result :=
  if f.inv then Result.failure .eInvalid true false
  else if f.ovf then Result.failure .eOvf true false
  else if f.len < 16 then Result.failure .eShort true false
  else fletcherDecode f.fb

/-- DECF: rewrite the result state, leave the frame alone, answer the STATUS view (R100, R110). -/
def execDecf (s : State) : Answer :=
  let r := fletcherResult s.frame
  (s.withResult r).okData (statusView r)

end Sys2Proof.Machine
end

