-- ==== Sys2Proof/Machine/Hamming.lean ====
section
/-! DEFINITION. DECH: the Hamming SECDED syndrome generator, error classifier, single-bit corrector and payload
extractor (41_hamming.md). Positions, syndromes and lengths are natural numbers while they are computed and are
narrowed to 24 bits where they are stored (log entry 12). -/

namespace Sys2Proof.Machine

/-- `bitlen(x)`: the number of bits of x (00_scope.md R6). -/
def bitlen (x : Nat) : Nat := if x = 0 then 0 else Nat.log2 x + 1

/-- `ispow2(i)`: i ≥ 1 and `i AND (i − 1) = 0` (00_scope.md R6). -/
def isPow2 (i : Nat) : Bool := decide (1 ≤ i) && decide (i &&& (i - 1) = 0)

/-- The powers of two up to M, ascending (R76). The block length M is that of the code block (90_conflicts.md C4). -/
def parityPositions (M : Nat) : List Nat := (List.range (bitlen M)).map (2 ^ ·)

/-- Parity position p covers position i (R78; 90_conflicts.md C1). -/
def covers (p i : Nat) : Bool := decide (i &&& p ≠ 0)

/-- `par(p)`: the XOR of the bits p covers in the code block (R79). -/
def groupParity (code : List Bit) (p : Nat) : Bit :=
  xorAll (((positions code.length).filter (covers p)).map (bitAt code))

/-- The syndrome: the sum of the parity positions whose group is odd (R80). -/
def syndrome (code : List Bit) : Nat := ((parityPositions code.length).filter (groupParity code)).sum

/-- `GlobalComputed(N)`: the XOR of all bits of the full frame as received (R82). -/
def globalComputed (fb : List Bit) : Bit := xorAll fb

/-- The code block and the received global parity bit: in SECDED mode the last bit is split off, in plain mode there
is none (R77). -/
def split (fb : List Bit) (m : Bit) : List Bit × Bit :=
  if m then (fb.take (fb.length - 1), bitAt fb fb.length) else (fb, false)

/-- What the classifier settles: the status, the error report, the code block after correction, the corrected
position. -/
structure Verdict where
  st   : Status
  er   : List ErrEntry
  code : List Bit
  cpos : Nat
  deriving DecidableEq, Repr

/-- The report entry of a position of the code block, as received (10_state.md R30). -/
def entryAt (code : List Bit) (i : Nat) : ErrEntry := { v := bitAt code i, pos := BitVec.ofNat 24 i }

/-- H_NOERR (R83; R89). -/
def verdictNoErr (code : List Bit) : Verdict := { st := .hNoErr, er := [], code := code, cpos := 0 }

/-- H_GPERR: the single error is in the global parity bit, at position N (R84; 90_conflicts.md C9). -/
def verdictGpErr (code : List Bit) (gp : Bit) (N : Nat) : Verdict :=
  { st := .hGpErr, er := [{ v := gp, pos := BitVec.ofNat 24 N }], code := code, cpos := 0 }

/-- H_CORR, the single-bit corrector (R85; R89). -/
def verdictCorr (code : List Bit) (syn : Nat) : Verdict :=
  { st := .hCorr, er := [entryAt code syn], code := flipBit code syn, cpos := syn }

/-- H_OOR: nothing is flipped, one entry with value 0 reports the syndrome (R86; R89). -/
def verdictOor (code : List Bit) (syn : Nat) : Verdict :=
  { st := .hOor, er := [{ v := false, pos := BitVec.ofNat 24 syn }], code := code, cpos := 0 }

/-- The candidate pairs inside the code block, in ascending order of their lower position (R87). -/
def candidatePairs (code : List Bit) (syn : Nat) : List ErrEntry :=
  (positions code.length).flatMap fun i =>
    let j := i ^^^ syn
    if i < j ∧ j ≤ code.length then [entryAt code i, entryAt code j] else []

/-- The additional pair with the global parity bit, when the syndrome names a position of the code block (R88). -/
def additionalPair (code : List Bit) (gp : Bit) (N syn : Nat) : List ErrEntry :=
  if 1 ≤ syn ∧ syn ≤ code.length then [entryAt code syn, { v := gp, pos := BitVec.ofNat 24 N }] else []

/-- H_DBL: candidates are reported, nothing is corrected and no pair is chosen (R87, R88, R95). -/
def verdictDbl (code : List Bit) (gp : Bit) (N syn : Nat) : Verdict :=
  { st := .hDbl, er := candidatePairs code syn ++ additionalPair code gp N syn, code := code, cpos := 0 }

/-- `ClassifySecded` (R83 to R88). -/
def classifySecded (code : List Bit) (gp : Bit) (N syn : Nat) (gpc : Bit) : Verdict :=
  if syn = 0 then
    if gpc then verdictGpErr code gp N else verdictNoErr code
  else if gpc then
    if syn ≤ code.length then verdictCorr code syn else verdictOor code syn
  else verdictDbl code gp N syn

/-- `ClassifyPlain` (R89). -/
def classifyPlain (code : List Bit) (syn : Nat) : Verdict :=
  if syn = 0 then verdictNoErr code
  else if syn ≤ code.length then verdictCorr code syn
  else verdictOor code syn

/-- `Payload`: the code block without its parity positions, in order (R91). -/
def payload (code : List Bit) : List Bit :=
  ((positions code.length).filter fun i => !isPow2 i).map (bitAt code)

/-- The Hamming decode of a frame that passed the pre-checks: the result state it writes (R75, R92). -/
def hammingDecode (fb : List Bit) (m : Bit) : Result :=
  let code := (split fb m).1
  let gp := (split fb m).2
  let syn := syndrome code
  let gpc := m && globalComputed fb
  let verdict := if m then classifySecded code gp fb.length syn gpc else classifyPlain code syn
  { Result.clear with
    st := verdict.st
    alg := false
    mode := m
    syn := BitVec.ofNat 24 syn
    gpc := gpc
    gpb := gp
    cpos := BitVec.ofNat 24 verdict.cpos
    pb := payload verdict.code
    er := verdict.er }

/-- The result state DECH writes, a function of the input-side state and the operand alone, the pre-checks in their
order of priority (R75, R93; 60_exceptions.md R126). -/
def hammingResult (f : Frame) (m : Bit) : Result :=
  if f.inv then Result.failure .eInvalid false m
  else if f.ovf then Result.failure .eOvf false m
  else if f.len = 0 then Result.failure .eEmpty false m
  else hammingDecode f.fb m

/-- DECH: rewrite the result state, leave the frame alone, answer the STATUS view (R75, R93). -/
def execDech (m : Bit) (s : State) : Answer :=
  let r := hammingResult s.frame m
  (s.withResult r).okData (statusView r)

end Sys2Proof.Machine
end

