-- ==== Sys2Proof/Machine/Load.lean ====
section
/-! DEFINITION. The frame-loading commands NOP, CLR, PUSHB, PUSHC and PUSHN (40_frame_load.md). -/

namespace Sys2Proof.Machine

/-- NOP: no state changes, the response is 0 (R65). -/
def execNop (s : State) : Answer := s.okData 0

/-- CLR: begin a new frame (R66). -/
def execClr (s : State) : Answer := s.clearBlock.okData 0

/-- What every push does after clearing the result: answer the length that results (R67, R69, R70). -/
def State.answerLen (s : State) : Answer := s.okData (lenView s.frame)

/-- PUSHB: append one bit (R67). -/
def execPushb (b : Bit) (s : State) : Answer := (s.clearResult.append b).answerLen

/-- A symbol that stands for no bit is not stored and sets INV (R69; 10_state.md R18). -/
def State.markInvalid (s : State) : State := s.withFrame { s.frame with inv := true }

/-- PUSHC: append the bit a symbol stands for, or set INV (R69). -/
def execPushc (c : BitVec 8) (s : State) : Answer :=
  match symbolBit c with
  | some b => (s.clearResult.append b).answerLen
  | none => s.clearResult.markInvalid.answerLen

/-- PUSHN: append n bits, most significant first (R70). The decoder has already rejected operands that are not legal;
the meaning rejects them too, so that it says the same of every operand (log entry 13). -/
def execPushn (n : BitVec 5) (v : BitVec 16) (s : State) : Answer :=
  if pushnLegal n v then (s.clearResult.appendAll (pushBits n v)).answerLen else s.reject .reserved

end Sys2Proof.Machine
end

