-- ==== Sys2Proof/Machine/Readout.lean ====
section
/-! DEFINITION. The read-out commands RDS, RDF, RDP and RDE: no state of the block changes, an index that addresses
nothing is rejected with C_RANGE (43_readout.md R113). -/

namespace Sys2Proof.Machine

/-- RDS: read a status or diagnostic register (R114). -/
def execRds (r : Pos) (s : State) : Answer :=
  match registerOf r with
  | some reg => s.okData (s.view reg)
  | none => s.reject .range

/-- RDF: read one bit of the frame as received (R116). -/
def execRdf (p : Pos) (s : State) : Answer :=
  match frameBit s.frame p with
  | some b => s.okData (bitView b)
  | none => s.reject .range

/-- RDP: read one bit of the payload (R117). -/
def execRdp (k : Pos) (s : State) : Answer :=
  match payloadBit s.result k with
  | some b => s.okData (bitView b)
  | none => s.reject .range

/-- An error-report entry as response data: `(v << 24) + pos` (R118). -/
def entryWord (e : ErrEntry) : BitVec 25 := ((BitVec.ofBool e.v).setWidth 25 <<< 24) + e.pos.setWidth 25

/-- RDE: read one entry of the error report (R118). -/
def execRde (k : Pos) (s : State) : Answer :=
  match reportEntry s.result k with
  | some e => s.ok (entryWord e)
  | none => s.reject .range

end Sys2Proof.Machine
end

