-- ==== Sys2Proof/Machine/Dispatch.lean ====
section
/-! DEFINITION. One arm per instruction, each a direct call of its meaning. -/

namespace Sys2Proof.Machine

/-- The meaning of each instruction (30_encoding.md R51). -/
def exec (i : Instr) (s : State) : Host.Outcome State Fault Refusal :=
  match i with
  | .nop => Sys2Proof.Machine.execNop s
  | .clr => Sys2Proof.Machine.execClr s
  | .pushb b => Sys2Proof.Machine.execPushb b s
  | .pushc c => Sys2Proof.Machine.execPushc c s
  | .pushn n v => Sys2Proof.Machine.execPushn n v s
  | .dech m => Sys2Proof.Machine.execDech m s
  | .decf => Sys2Proof.Machine.execDecf s
  | .rds r => Sys2Proof.Machine.execRds r s
  | .rdf p => Sys2Proof.Machine.execRdf p s
  | .rdp k => Sys2Proof.Machine.execRdp k s
  | .rde k => Sys2Proof.Machine.execRde k s

end Sys2Proof.Machine
end

