-- ==== Sys2Proof/Machine/Port.lean ====
section
/-! DEFINITION. The command port at transaction level: what the block does with each action of the host
(00_scope.md R3, R4; 70_reset_and_hazards.md R139, R140, R149). -/

namespace Sys2Proof.Machine

/-- Run one command word to completion: execute what it decodes to, or answer the command error
(30_encoding.md R53). -/
def runCommand (w : Word) (s : State) : Answer :=
  match decode w with
  | .ok i => exec i s
  | .error c => s.reject c

/-- A run of command words, rejected ones included: the step of the block folded over them (70_reset_and_hazards.md
R147). -/
def runWords : List Word → State → Answer
  | [], s => .next s
  | w :: ws, s =>
    match runCommand w s with
    | .next t => runWords ws t
    | .fault f => nomatch f
    | .refused r => .refused r

/-- One action of the host. A reset, between commands or in place of the completion of one, leaves the reset state and
delivers no response (70_reset_and_hazards.md R139, R140). -/
def perform (a : HostAction) (s : State) : Answer :=
  match a with
  | .idle => .next s
  | .command w => runCommand w s
  | .reset => .next s.clearBlock
  | .resetDuring _ => .next s.clearBlock

/-- Take the host's next action and perform it; with none left the host stays idle and the state is held
(70_reset_and_hazards.md R149; log entry 5). -/
def takeAction (s : State) : Answer :=
  match s.inputs with
  | [] => .next s
  | a :: rest => perform a (s.withInputs rest)

/-- Present one more command word, ahead of everything else the host does. -/
def State.present (s : State) (w : Word) : State := s.withInputs (.command w :: s.inputs)

end Sys2Proof.Machine
end

