-- ==== Sys2Proof/Machine/Step.lean ====
section
/-! DEFINITION. One step of the machine. -/

namespace Sys2Proof.Machine

/-- One step: the host's next action, performed completely and atomically (00_scope.md R3). -/
def step (s : State) : Host.Outcome State Fault Refusal := takeAction s

/-- `s` with an instruction of `nbits` bits `w` presented as the host's next command. The block fetches nothing
(10_state.md R15); the word the host presents next is what the next step runs (log entry 4). -/
def State.withFetchWord (s : State) (nbits w : Nat) : State := s.present (BitVec.ofNat 32 (w % 2 ^ nbits))

end Sys2Proof.Machine
end

