-- ==== Sys2Proof/Machine/Assembly.lean ====
section
/-! DEFINITION. The assembler notation and the pseudo-instructions (30_encoding.md R57, R58), and programs as
sequences of instructions (70_reset_and_hazards.md R147). -/

namespace Sys2Proof.Machine

/-- The pseudo-instructions (30_encoding.md R58). A string of characters is given by its symbol codes. -/
inductive Pseudo where
  /-- `DECH.S`. -/
  | dechS
  /-- `DECH.P`. -/
  | dechP
  /-- `PUSHBYTE b`. -/
  | pushByte (b : BitVec 8)
  /-- `PUSHBITS "s"`. -/
  | pushBits (s : List Bit)
  /-- `PUSHSTR "s"`. -/
  | pushStr (s : List (BitVec 8))
  /-- `FRAME "s"`. -/
  | frame (s : List Bit)
  deriving DecidableEq, Repr

/-- The expansions (30_encoding.md R58). -/
def Pseudo.expand : Pseudo → List Instr
  | .dechS => [.dech true]
  | .dechP => [.dech false]
  | .pushByte b => [.pushn 8 (b.setWidth 16)]
  | .pushBits s => s.map Instr.pushb
  | .pushStr s => s.map Instr.pushc
  | .frame s => .clr :: s.map Instr.pushb

/-- The symbol code a quoted character stands for: its ASCII code (30_encoding.md R57; log entry 15). -/
def charCode (c : Char) : Option (BitVec 8) :=
  if c.toNat < 128 then some (BitVec.ofNat 8 c.toNat) else none

/-- The mnemonic (30_encoding.md R51). -/
def mnemonicOf : Instr → String
  | .nop => "NOP"
  | .clr => "CLR"
  | .pushb _ => "PUSHB"
  | .pushc _ => "PUSHC"
  | .pushn _ _ => "PUSHN"
  | .dech _ => "DECH"
  | .decf => "DECF"
  | .rds _ => "RDS"
  | .rdf _ => "RDF"
  | .rdp _ => "RDP"
  | .rde _ => "RDE"

/-- The operands in the order of the notation (30_encoding.md R57). -/
def operandValues : Instr → List Nat
  | .nop | .clr | .decf => []
  | .pushb b => [b.toNat]
  | .pushc c => [c.toNat]
  | .pushn n v => [n.toNat, v.toNat]
  | .dech m => [m.toNat]
  | .rds r => [r.toNat]
  | .rdf p => [p.toNat]
  | .rdp k => [k.toNat]
  | .rde k => [k.toNat]

/-- `MNEMONIC operand, operand`, operands decimal (30_encoding.md R57). -/
def assembly (i : Instr) : String :=
  match operandValues i with
  | [] => mnemonicOf i
  | vs => mnemonicOf i ++ " " ++ String.intercalate ", " (vs.map toString)

/-- The name a register index may be written by (30_encoding.md R57; 10_state.md R32). -/
def registerName : Register → String
  | .cap => "CAP"
  | .len => "LEN"
  | .flags => "FLAGS"
  | .status => "STATUS"
  | .syn => "SYN"
  | .par => "PAR"
  | .cpos => "CPOS"
  | .plen => "PLEN"
  | .elen => "ELEN"
  | .calc => "CALC"
  | .rxck => "RXCK"

/-- A program executed instruction by instruction (70_reset_and_hazards.md R147). -/
def runAll : List Instr → State → Answer
  | [], s => .next s
  | i :: is, s =>
    match exec i s with
    | .next t => runAll is t
    | .fault f => nomatch f
    | .refused r => .refused r

/-- A program as what the host does: one command word per instruction. -/
def program (is : List Instr) : List HostAction := is.map fun i => .command (encode i)

end Sys2Proof.Machine
end

