-- ==== Sys2Proof/Machine/HostView.lean ====
section
/-! DEFINITION. How a host reads an outcome: the names of the codes, the taxonomy of outcomes, and the source's two
result shapes (43_readout.md R119; 60_exceptions.md R122, R137). -/

namespace Sys2Proof.Machine

/-- The name of a status code, the source's `reason` (10_state.md R21; 60_exceptions.md R137). -/
def statusName : Status → String
  | .none => "ST_NONE"
  | .hNoErr => "H_NOERR"
  | .hGpErr => "H_GPERR"
  | .hCorr => "H_CORR"
  | .hDbl => "H_DBL"
  | .hOor => "H_OOR"
  | .fOk => "F_OK"
  | .fMismatch => "F_MISMATCH"
  | .eInvalid => "E_INVALID"
  | .eOvf => "E_OVF"
  | .eEmpty => "E_EMPTY"
  | .eShort => "E_SHORT"

/-- The name of a command error (60_exceptions.md R124). -/
def errorName : CmdError → String
  | .illegal => "C_ILLEGAL"
  | .reserved => "C_RESERVED"
  | .range => "C_RANGE"

/-- The source's `status` of a response (43_readout.md R119; 60_exceptions.md R137). -/
inductive SourceStatus where
  | ok
  | error
  deriving DecidableEq, Repr

/-- The source's `status` for a held result; none when no result is held (43_readout.md R119; log entry 16). -/
def sourceStatus : Status → Option SourceStatus
  | .none => none
  | .hNoErr | .hGpErr | .hCorr | .hDbl | .hOor | .fOk => some .ok
  | .fMismatch | .eInvalid | .eOvf | .eEmpty | .eShort => some .error

/-- The kinds of outcome (60_exceptions.md R122). -/
inductive Kind where
  | success
  /-- The command was rejected: no executed command, no status. -/
  | commandError
  | decodeFailure
  | correctable
  | uncorrectable
  deriving DecidableEq, Repr

/-- The kind of a status, that is of an executed decode; none when no result is held (60_exceptions.md R122). -/
def kindOf : Status → Option Kind
  | .none => none
  | .hNoErr | .fOk => some .success
  | .hCorr | .hGpErr => some .correctable
  | .hDbl | .hOor | .fMismatch => some .uncorrectable
  | .eInvalid | .eOvf | .eEmpty | .eShort => some .decodeFailure

/-- The statuses whose payload a host may trust (70_reset_and_hazards.md R143, obligation 5). -/
def payloadTrusted : Status → Bool
  | .hNoErr | .hGpErr | .hCorr | .fOk => true
  | .none | .hDbl | .hOor | .fMismatch | .eInvalid | .eOvf | .eEmpty | .eShort => false

/-- The response as the host reads it: an error code, or data (30_encoding.md R56). -/
inductive Reading where
  | rejected (code : BitVec 4)
  | data (d : BitVec 25)
  deriving DecidableEq, Repr

/-- Reading of a response word by its fields (30_encoding.md R56). -/
def readResponse (w : Word) : Reading :=
  if w.getLsbD 31 then .rejected (w.extractLsb' 24 4) else .data (w.extractLsb' 0 25)

/-- The kind of outcome a host sees in a response and the result state held with it: a command error by the response,
anything else by the status (60_exceptions.md R122; log entry 16). -/
def outcomeKind (rsp : Word) (r : Result) : Option Kind :=
  match readResponse rsp with
  | .rejected _ => some .commandError
  | .data _ => kindOf r.st

/-- The command error a code names (60_exceptions.md R124); codes 0 and 4 to 15 are never produced and name none (log
entry 16). -/
def errorOfCode (code : BitVec 4) : Option CmdError :=
  [CmdError.illegal, .reserved, .range].find? fun c => c.code == code

/-- The two values of the source's `algorithm` (30_encoding.md, the decode opcodes). -/
inductive Algorithm where
  | hamming
  | fletcher16
  deriving DecidableEq, Repr

/-- The source's `algorithm`, read from ALG (10_state.md R23; 43_readout.md R119). -/
def algorithmOf (alg : Bit) : Algorithm := if alg then .fletcher16 else .hamming

/-- The source's two result shapes (43_readout.md, opening, and R119; 60_exceptions.md R137). The constructor is the
shape's `status`. `decoded_text` is outside the block. -/
inductive SourceResponse where
  /-- Status "ok", with the decoded bits, the two lengths and the error report. -/
  | ok (algorithm : Algorithm) (decodedBits : List Bit) (inputLen outputLen : Nat) (errors : List ErrEntry)
  /-- Status "error", with a reason; the algorithm is absent when the failure is a command error. -/
  | error (algorithm : Option Algorithm) (reason : Option String)
  deriving DecidableEq, Repr

/-- The `status` of a result shape. -/
def statusOf : SourceResponse → SourceStatus
  | .ok .. => .ok
  | .error .. => .error

/-- The source's response that a command's response word and the state after it stand for: an error without an
algorithm when the response has ERR = 1, else what ST says, with the algorithm of ALG and the reason named after the
code (60_exceptions.md R137; 43_readout.md R119); none when no result is held (log entry 16). -/
def sourceResponse (rsp : Word) (s : State) : Option SourceResponse :=
  match readResponse rsp with
  | .rejected code => some (.error none ((errorOfCode code).map errorName))
  | .data _ =>
    (sourceStatus s.result.st).map fun status =>
      match status with
      | .ok => .ok (algorithmOf s.result.alg) s.result.pb s.frame.len s.result.pb.length s.result.er
      | .error => .error (some (algorithmOf s.result.alg)) (some (statusName s.result.st))

/-- The source's optional structured trace (43_readout.md R119; 60_exceptions.md R136). -/
structure Trace where
  syn        : BitVec 24
  par        : BitVec 24
  cpos       : BitVec 24
  calculated : BitVec 24
  rxck       : BitVec 24
  deriving DecidableEq, Repr

/-- The trace of a result, each part as the register of that name reads (43_readout.md R119; 10_state.md R32). -/
def traceOf (s : State) : Trace :=
  { syn := s.view .syn, par := s.view .par, cpos := s.view .cpos, calculated := s.view .calc, rxck := s.view .rxck }

end Sys2Proof.Machine
end

