-- ==== Sys2Proof/Machine/Pins.lean ====
section
/-! DEFINITION. The pin level: the ready/valid handshake that carries the two words of a transaction
(70_reset_and_hazards.md R148). A second machine, whose step is one rising edge of `clk`; no rule of the transaction
level depends on it. -/

namespace Sys2Proof.Machine

/-- The input pins as sampled on a rising edge. -/
structure PinIn where
  rst      : Bit
  cmdValid : Bit
  cmd      : Word
  rspReady : Bit
  deriving DecidableEq, Repr

/-- The output pins. `rsp` holds a word only while `rspValid` is high: what it shows at other times is not stated
(log entry 7). -/
structure PinOut where
  cmdReady : Bit
  rspValid : Bit
  rsp      : Option Word
  deriving DecidableEq, Repr

/-- Where the handshake stands: at most one command is in the block. -/
inductive Phase where
  /-- A command word can be accepted. -/
  | ready
  /-- A command was accepted and its response is not presented yet: `left` edges pass before the one that presents
  it. -/
  | busy (w : Word) (left : Nat)
  /-- The response of the command `w` is presented and not yet taken. -/
  | answering (w rsp : Word)
  deriving DecidableEq, Repr

/-- The block at pin level. -/
structure PinState where
  /-- The architectural state; its `responses` are those delivered. -/
  core     : State
  phase    : Phase
  /-- How many commands were accepted: an argument of the free latency (log entry 6). -/
  accepted : Nat
  deriving DecidableEq, Repr

/-- The state a command leaves, its response not yet delivered. -/
def commandEffect (w : Word) (s : State) : State :=
  match runCommand w s with
  | .next t => { t with responses := s.responses }
  | .fault f => nomatch f
  | .refused _ => s

/-- The response a command gives. -/
def commandResponse (w : Word) (s : State) : Word :=
  match runCommand w s with
  | .next t => t.responses.getLastD 0
  | .fault f => nomatch f
  | .refused _ => 0

/-- The output pins: a function of the phase, both handshake outputs low while `rst` is high (R148). -/
def PinState.out (p : PinState) (rst : Bit) : PinOut :=
  if rst then { cmdReady := false, rspValid := false, rsp := none }
  else match p.phase with
    | .ready => { cmdReady := true, rspValid := false, rsp := none }
    | .busy _ _ => { cmdReady := false, rspValid := false, rsp := none }
    | .answering _ r => { cmdReady := false, rspValid := true, rsp := some r }

/-- How many edges after this one the response of the command `w`, accepted on it, is presented (R146): the free latency
of the commands accepted so far, the word and the input-side state, and of nothing else (log entry 6; DESIGN CHOICE,
safe). -/
def PinState.latency (p : PinState) (w : Word) : Nat :=
  Config.latency p.accepted w p.core.frame.fb p.core.frame.inv p.core.frame.ovf

/-- What an edge does for the command `w` in the block, when `rsp_valid` rises `k` edges later: with k = 0 it rises on
this edge, and the state changes with it, the latest moment the rule allows (log entry 6). -/
def PinState.work (p : PinState) (w : Word) : Nat → PinState
  | 0 => { p with core := commandEffect w p.core, phase := .answering w (commandResponse w p.core) }
  | k + 1 => { p with phase := .busy w k }

/-- One rising edge of `clk` (R139, R140, R148). A command accepted on this edge is answered `PinState.latency` edges
later; a latency of 0 raises `rsp_valid` on the accepting edge itself, which the spec neither allows nor forbids ("a
finite number of cycles", R146, R148), and nothing in the model says whether it occurs (log entry 6; DESIGN CHOICE,
safe). -/
def clockEdge (i : PinIn) (p : PinState) : PinState :=
  if i.rst then { p with core := p.core.clearBlock, phase := .ready }
  else match p.phase with
    | .ready =>
      if i.cmdValid then { p with accepted := p.accepted + 1 }.work i.cmd (p.latency i.cmd) else p
    | .busy w k => p.work w k
    | .answering _ r => if i.rspReady then { p with core := p.core.respond r, phase := .ready } else p

/-- What an edge is to the transaction level: the delivery of a response is the command, a reset is a reset, cutting
short whatever command was in the block (R140); any other edge is nothing. -/
def edgeActions (i : PinIn) (p : PinState) : List HostAction :=
  if i.rst then
    match p.phase with
    | .ready => [.reset]
    | .busy w _ => [.resetDuring w]
    | .answering w _ => [.resetDuring w]
  else match p.phase with
    | .answering w _ => if i.rspReady then [.command w] else []
    | .ready => []
    | .busy _ _ => []

/-- A run of edges: the state after it. -/
def pinRun : List PinIn → PinState → PinState
  | [], p => p
  | i :: is, p => pinRun is (clockEdge i p)

/-- A run of edges: what it is to the transaction level. -/
def pinActions : List PinIn → PinState → List HostAction
  | [], _ => []
  | i :: is, p => edgeActions i p ++ pinActions is (clockEdge i p)

/-- The pin level after reset: ready as soon as `rst` is low (R141). -/
def PinState.reset : PinState := { core := State.reset, phase := .ready, accepted := 0 }

end Sys2Proof.Machine
end

