-- ==== Sys2Proof/Safety.lean ====
section
/-! DEFINITION. What the claims speak of: the invariants of 10_state.md R33 and R22, valid frames, the tests a command
word can fail, and which actions of the host begin a new frame. The block raises no fault (60_exceptions.md R121), so a
run is always safe in the sense of stopping; what can be broken is the state's own coherence. -/

namespace Sys2Proof.Machine

/-! ### The tests of a command word, by arithmetic on the word (30_encoding.md R50, R53) -/

/-- `cmd[31:24]` as a number. -/
def wordOp (w : Word) : Nat := w.toNat / 2 ^ 24

/-- `cmd[23:0]` as a number. -/
def wordArg (w : Word) : Nat := w.toNat % 2 ^ 24

/-- Test 1 of R53 fails: the opcode is not one of the eleven. -/
abbrev IllegalWord (w : Word) : Prop :=
  wordOp w ∉ [0x00, 0x01, 0x02, 0x03, 0x04, 0x10, 0x11, 0x20, 0x21, 0x22, 0x23]

/-- Test 2 of R53 fails: a reserved field is not zero, or PUSHN has n = 0, n > 16 or v ≥ 2^n. -/
abbrev ReservedWord (w : Word) : Prop :=
  (wordOp w ∈ [0x00, 0x01, 0x11] ∧ wordArg w ≠ 0) ∨
  (wordOp w ∈ [0x02, 0x10] ∧ wordArg w / 2 ≠ 0) ∨
  (wordOp w = 0x03 ∧ wordArg w / 2 ^ 8 ≠ 0) ∨
  (wordOp w = 0x04 ∧
    (wordArg w / 2 ^ 21 ≠ 0 ∨ wordArg w / 2 ^ 16 % 32 = 0 ∨ 16 < wordArg w / 2 ^ 16 % 32 ∨
      2 ^ (wordArg w / 2 ^ 16 % 32) ≤ wordArg w % 2 ^ 16))

/-- Test 3 of R53 fails: the index of a read addresses nothing (20_memory.md R42, R44). -/
abbrev OutOfRangeWord (w : Word) (s : State) : Prop :=
  (wordOp w = 0x20 ∧ 10 < wordArg w) ∨
  (wordOp w = 0x21 ∧ (wordArg w = 0 ∨ s.frame.fb.length < wordArg w)) ∨
  (wordOp w = 0x22 ∧ s.result.pb.length ≤ wordArg w) ∨
  (wordOp w = 0x23 ∧ s.result.er.length ≤ wordArg w)

/-! ### Kinds of commands and of actions -/

/-- The frame-loading commands that change something (40_frame_load.md R66 to R70). -/
def loads : Instr → Bool
  | .clr | .pushb _ | .pushc _ | .pushn _ _ => true
  | .nop | .dech _ | .decf | .rds _ | .rdf _ | .rdp _ | .rde _ => false

/-- The two decode commands (30_encoding.md R51). -/
def decodes : Instr → Bool
  | .dech _ | .decf => true
  | .nop | .clr | .pushb _ | .pushc _ | .pushn _ _ | .rds _ | .rdf _ | .rdp _ | .rde _ => false

/-- The four read-out commands (43_readout.md R113). -/
def reads : Instr → Bool
  | .rds _ | .rdf _ | .rdp _ | .rde _ => true
  | .nop | .clr | .pushb _ | .pushc _ | .pushn _ _ | .dech _ | .decf => false

/-- The bits a command offers to the frame buffer, in order: none for a symbol that is not a bit, and none for a PUSHN
that is rejected (40_frame_load.md R67, R69, R70). -/
def pushedBits : Instr → List Bit
  | .pushb b => [b]
  | .pushc c => if c = 0x30#8 then [false] else if c = 0x31#8 then [true] else []
  | .pushn n v =>
    if 1 ≤ n.toNat ∧ n.toNat ≤ 16 ∧ v.toNat < 2 ^ n.toNat then
      (List.range n.toNat).map fun k => v.getLsbD (n.toNat - 1 - k)
    else []
  | .nop | .clr | .dech _ | .decf | .rds _ | .rdf _ | .rdp _ | .rde _ => []

/-- The actions that begin a new frame: CLR and reset (10_state.md R16 to R19). -/
abbrev BeginsFrame (a : HostAction) : Prop :=
  match a with
  | .command w => w = 0x01000000#32
  | .reset => True
  | .resetDuring _ => True
  | .idle => False

/-! ### Valid frames (00_scope.md glossary) -/

/-- The input-side state of a frame received whole and without a bad symbol. -/
def cleanFrame (fb : List Bit) : Frame := { fb := fb, inv := false, ovf := false }

/-- A valid SECDED frame: DECH 1 ends in H_NOERR. -/
abbrev ValidSecded (fb : List Bit) : Prop := (hammingResult (cleanFrame fb) true).st = .hNoErr

/-- A valid Fletcher-16 frame: DECF ends in F_OK. -/
abbrev ValidFletcher (fb : List Bit) : Prop := (fletcherResult (cleanFrame fb)).st = .fOk

/-- The low `w` bits of a number, most significant first: a field as it stands in a frame (20_memory.md R37). -/
def fieldBits (w v : Nat) : List Bit := (List.range w).map fun k => v.testBit (w - 1 - k)

/-- The frame in `s` can be decoded: no bad symbol, nothing lost, not empty (60_exceptions.md R126). -/
abbrev Clean (s : State) : Prop := s.frame.inv = false ∧ s.frame.ovf = false ∧ s.frame.fb ≠ []

/-- How many positions two frames differ at. -/
def distance (f g : List Bit) : Nat := ((f.zip g).filter fun p => p.1 != p.2).length

/-! ### Invariants -/

/-- The code-block length of a result's decode: M = LEN − 1 in mode 1, M = LEN in mode 0 (10_state.md R33, item 7). -/
def codeLength (s : State) : Nat := if s.result.mode then s.frame.len - 1 else s.frame.len

/-- R33, item 1: the frame fits its buffer. -/
abbrev Fits (s : State) : Prop := s.frame.len ≤ s.params.nmax

/-- R33, item 2: with ST = 0 the result state is clear. -/
abbrev NoneIsClear (s : State) : Prop := s.result.st = .none → s.result = Result.clear

/-- R33, item 3: after a decode failure everything but ST, ALG and MODE is clear. -/
abbrev FailureIsBare (s : State) : Prop :=
  s.result.st ∈ [Status.eInvalid, .eOvf, .eEmpty, .eShort] →
    s.result = { Result.clear with st := s.result.st, alg := s.result.alg, mode := s.result.mode }

/-- R33, item 4: which ALG and MODE each status goes with, and the codes that never occur. -/
abbrev StatusMatchesCommand (s : State) : Prop :=
  (s.result.st ∈ [Status.hNoErr, .hGpErr, .hCorr, .hDbl, .hOor] → s.result.alg = false) ∧
  (s.result.st ∈ [Status.fOk, .fMismatch] → s.result.alg = true ∧ s.result.mode = false) ∧
  (s.result.st ∈ [Status.hGpErr, .hDbl] → s.result.mode = true) ∧
  (s.result.st = .eShort → s.result.alg = true) ∧
  (s.result.st = .eEmpty → s.result.alg = false) ∧
  s.result.st.code.toNat ∉ [6, 7, 10, 11]

/-- R33, item 5: which sticky flags each status goes with. -/
abbrev StatusMatchesFlags (s : State) : Prop :=
  (s.result.st ∉ [Status.none, .eInvalid, .eOvf] → s.frame.inv = false ∧ s.frame.ovf = false) ∧
  (s.result.st = .eInvalid → s.frame.inv = true) ∧
  (s.result.st = .eOvf → s.frame.inv = false ∧ s.frame.ovf = true)

/-- R33, item 6: the size of the error report. -/
abbrev ReportSize (s : State) : Prop :=
  (s.result.er.length = 0 ↔ s.result.st ∉ [Status.hGpErr, .hCorr, .hDbl, .hOor]) ∧
  (s.result.st ∈ [Status.hGpErr, .hCorr, .hOor] → s.result.er.length = 1) ∧
  (s.result.st = .hDbl →
    s.result.er.length % 2 = 0 ∧ 2 ≤ s.result.er.length ∧ s.result.er.length ≤ s.frame.len)

/-- R33, item 7: what SYN, CPOS and GPC say in each Hamming status. -/
abbrev SyndromeMatchesStatus (s : State) : Prop :=
  (s.result.st = .hNoErr → s.result.syn = 0 ∧ s.result.gpc = false) ∧
  (s.result.st = .hGpErr → s.result.syn = 0 ∧ s.result.gpc = true) ∧
  (s.result.st = .hCorr →
    1 ≤ s.result.syn.toNat ∧ s.result.syn = s.result.cpos ∧ s.result.cpos.toNat ≤ codeLength s ∧
    (s.result.mode = true → s.result.gpc = true)) ∧
  (s.result.st = .hDbl → s.result.syn ≠ 0 ∧ s.result.gpc = false) ∧
  (s.result.st = .hOor →
    codeLength s < s.result.syn.toNat ∧ (s.result.mode = true → s.result.gpc = true))

/-- R33, item 8: the length of the payload, and how the two checksums compare. -/
abbrev PayloadSize (s : State) : Prop :=
  (s.result.st ∈ [Status.hNoErr, .hGpErr, .hCorr, .hDbl, .hOor] →
    s.result.pb.length = codeLength s - bitlen (codeLength s)) ∧
  (s.result.st = .fOk → s.result.pb.length = s.frame.len - 16 ∧ calcView s.result = s.result.rxck.setWidth 24) ∧
  (s.result.st = .fMismatch → s.result.pb.length = 0 ∧ calcView s.result ≠ s.result.rxck.setWidth 24)

/-- R33, item 9: the accumulators never hold 0xFF. -/
abbrev SumsBelow255 (s : State) : Prop := s.result.s1.toNat ≤ 254 ∧ s.result.s2.toNat ≤ 254

/-- R33, item 10: CPOS names a position exactly in class H_CORR. -/
abbrev CorrectedOnlyInCorr (s : State) : Prop := s.result.cpos ≠ 0 ↔ s.result.st = .hCorr

/-- R33: all ten items. -/
structure Invariant (s : State) : Prop where
  fits : Fits s
  noneIsClear : NoneIsClear s
  failureIsBare : FailureIsBare s
  statusMatchesCommand : StatusMatchesCommand s
  statusMatchesFlags : StatusMatchesFlags s
  reportSize : ReportSize s
  syndromeMatchesStatus : SyndromeMatchesStatus s
  payloadSize : PayloadSize s
  sumsBelow255 : SumsBelow255 s
  correctedOnlyInCorr : CorrectedOnlyInCorr s

/-- R22: whenever a result is held, it is the function of the current frame, ALG and MODE that the decode rules
define; otherwise it is clear. -/
abbrev ResultOfFrame (s : State) : Prop :=
  s.result = Result.clear ∨
  s.result = hammingResult s.frame s.result.mode ∨
  s.result = fletcherResult s.frame

end Sys2Proof.Machine
end

