-- ==== Sys2Proof/Certificates/Slice0/Obligations.lean ====
section
/-! DEFINITION. The statements for the provers, taken from the numbered rules of spec/. Each docstring names the rules. -/

open Sys2Proof Sys2Proof.Machine

/-! ## Encoding -/

/-- Decoding the command word of a well-formed instruction gives it back, with every operand at every value its field
admits (30_encoding.md R50, R52, R54). -/
def Obligations.DecodeOfEncodeIsTheInstruction : Prop :=
  ∀ i : Instr, i.wellFormed = true → decode (encode i) = .ok i

/-- An accepted word is the command word of the instruction it decodes to, and that instruction is well formed: no bit
of an accepted word is dropped (30_encoding.md R52, R53). -/
def Obligations.AcceptedWordIsItsInstructionsEncoding : Prop :=
  ∀ (w : Word) (i : Instr), decode w = .ok i → i.wellFormed = true ∧ encode i = w

/-- R53, R123, R124: the three tests of a command word in their order, the first that fails deciding the response and
changing nothing but the response; otherwise the decoded instruction runs and answers data below 2^25. Every word has
exactly one outcome, no word meets two causes of rejection, and two accepted words with one meaning are one word. -/
def Obligations.CommandWordOutcomes : Prop :=
  (∀ (s : State) (w : Word) (rest : List HostAction), s.inputs = .command w :: rest →
    (IllegalWord w →
      step s = .next { s with inputs := rest, responses := s.responses ++ [0x81000000#32] }) ∧
    (¬ IllegalWord w → ReservedWord w →
      step s = .next { s with inputs := rest, responses := s.responses ++ [0x82000000#32] }) ∧
    (¬ IllegalWord w → ¬ ReservedWord w → OutOfRangeWord w s →
      step s = .next { s with inputs := rest, responses := s.responses ++ [0x83000000#32] }) ∧
    (¬ IllegalWord w → ¬ ReservedWord w → ¬ OutOfRangeWord w s →
      ∃ (i : Instr) (t : State) (d : BitVec 25), decode w = .ok i ∧ step s = exec i { s with inputs := rest } ∧
        step s = .next t ∧ t.responses = s.responses ++ [d.setWidth 32]) ∧
    ¬ (IllegalWord w ∧ ReservedWord w) ∧ ¬ (IllegalWord w ∧ OutOfRangeWord w s) ∧
    ¬ (ReservedWord w ∧ OutOfRangeWord w s)) ∧
  (∀ (w w' : Word) (i : Instr), decode w = .ok i → decode w' = .ok i → w = w')

/-- Words written out from the spec's tables decode to the instructions they stand for (30_encoding.md section 7): one
or more of every format, and three that are rejected. -/
def Obligations.WordsOfTheSpecDecode : Prop :=
  decode 0x00000000#32 = .ok .nop ∧ decode 0x01000000#32 = .ok .clr ∧
  decode 0x02000001#32 = .ok (.pushb true) ∧ decode 0x03000041#32 = .ok (.pushc 0x41) ∧
  decode 0x04080066#32 = .ok (.pushn 8 0x66) ∧ decode 0x10000001#32 = .ok (.dech true) ∧
  decode 0x11000000#32 = .ok .decf ∧ decode 0x20000003#32 = .ok (.rds 3) ∧
  decode 0x21000001#32 = .ok (.rdf 1) ∧ decode 0x22000000#32 = .ok (.rdp 0) ∧
  decode 0x23000002#32 = .ok (.rde 2) ∧ decode 0x05000000#32 = .error .illegal ∧
  decode 0x10000002#32 = .error .reserved ∧ decode 0x04030009#32 = .error .reserved

/-! ## The step -/

/-- When the word the host presents next decodes to an instruction, the step is that instruction's meaning on the state
from which the host's action has been taken. The step adds nothing else: there is no program counter (10_state.md R15).
An idle host, and a host with nothing left to do, change nothing (70_reset_and_hazards.md R149). The list of the host's
actions, and that an empty one is an idle host, are the model's own (log entries 2 and 5). -/
def Obligations.StepRunsTheDecodedInstruction : Prop :=
  (∀ (s : State) (w : Word) (rest : List HostAction) (i : Instr),
    s.inputs = .command w :: rest → decode w = .ok i → step s = exec i { s with inputs := rest }) ∧
  (∀ (s : State) (rest : List HostAction), s.inputs = .idle :: rest → step s = .next { s with inputs := rest }) ∧
  (∀ s : State, s.inputs = [] → step s = .next s)

/-- R139, R140: a reset leaves every field of the block at its reset value, gives no response, and cuts short a command
in the block, whose word has no effect and no response. What was delivered before and what the host does next are the
host's, no state of the block, and stay. -/
def Obligations.ResetActionsGiveTheResetState : Prop :=
  ∀ (s : State) (rest : List HostAction) (w : Word),
    s.inputs = .reset :: rest ∨ s.inputs = .resetDuring w :: rest →
      step s = .next { s with
        inputs := rest
        frame := { fb := [], inv := false, ovf := false }
        result := { st := .none, alg := false, mode := false, syn := 0, gpc := false, gpb := false, cpos := 0,
                    s1 := 0, s2 := 0, rxck := 0, pb := [], er := [] } }

/-- R34: the reset state, field by field, and CLR leaves the same. -/
def Obligations.ResetStateIsTheClearState : Prop :=
  State.reset.frame = { fb := [], inv := false, ovf := false } ∧
  State.reset.result =
    { st := .none, alg := false, mode := false, syn := 0, gpc := false, gpb := false, cpos := 0,
      s1 := 0, s2 := 0, rxck := 0, pb := [], er := [] } ∧
  State.reset.result.st.code = 0 ∧ Result.clear = State.reset.result ∧
  ∀ s : State, exec .clr s = .next { s with
    frame := State.reset.frame, result := State.reset.result, responses := s.responses ++ [0x00000000#32] }

/-- R121: no trap, no stop. Every step of every state, reachable or not, gives a next state ready for the host's next
action; a command gives exactly one response, any other action none; a response is either data below 2^25 or one of
the three rejections, and a rejection changes nothing. -/
def Obligations.EveryStepAnswers : Prop :=
  ∀ s : State, ∃ t : State, step s = .next t ∧ t.inputs = s.inputs.tail ∧
    (∀ (w : Word) (rest : List HostAction), s.inputs = .command w :: rest →
      ∃ r : Word, t.responses = s.responses ++ [r] ∧
        (r.toNat < 0x02000000 ∨
          (r ∈ [0x81000000#32, 0x82000000#32, 0x83000000#32] ∧ t.frame = s.frame ∧ t.result = s.result))) ∧
    ((∀ (w : Word) (rest : List HostAction), s.inputs ≠ .command w :: rest) → t.responses = s.responses)

/-- Every run of commands, rejected ones included, ends in the state and with the responses of folding the step of the
block over the words, every command answered, in order and once: the k-th response is the one the k-th word gives in the
state the words before it leave (70_reset_and_hazards.md R145, R147, R149). -/
def Obligations.RunAnswersEveryCommand : Prop :=
  ∀ (s : State) (ws : List Word), s.inputs = ws.map HostAction.command →
    ∃ (t : State) (rs : List Word), Sys2Proof.core.run ws.length s = .next t ∧
      runWords ws { s with inputs := [] } = .next t ∧ t.inputs = [] ∧
      t.params = s.params ∧ rs.length = ws.length ∧ t.responses = s.responses ++ rs ∧
      ∀ (k : Nat) (w : Word), ws[k]? = some w →
        ∃ (u v : State) (r : Word), runWords (ws.take k) { s with inputs := [] } = .next u ∧
          runCommand w u = .next v ∧ v.responses = u.responses ++ [r] ∧ rs[k]? = some r

/-- A program presented as command words runs instruction by instruction (70_reset_and_hazards.md R147: "the state is
the result of folding the step function over the words"). -/
def Obligations.ProgramIsFoldedInstructionByInstruction : Prop :=
  ∀ (s : State) (is : List Instr), (∀ i ∈ is, i.wellFormed = true) → s.inputs = program is →
    Sys2Proof.core.run is.length s = runAll is { s with inputs := [] }

/-! ## Loading a frame -/

/-- R65: NOP writes no state and answers 0; with a non-zero operand it is rejected. -/
def Obligations.NopChangesNothing : Prop :=
  encode .nop = 0x00000000#32 ∧
  (∀ s : State, exec .nop s = .next { s with responses := s.responses ++ [0x00000000#32] }) ∧
  (∀ w : Word, wordOp w = 0x00 → wordArg w ≠ 0 → decode w = .error .reserved)

/-- R66: CLR empties the frame buffer, clears both sticky flags and the result state, and answers 0; it is the only
command that shortens the frame buffer or clears a sticky flag; with a non-zero operand it is rejected. -/
def Obligations.ClrBeginsANewFrame : Prop :=
  encode .clr = 0x01000000#32 ∧
  (∀ s : State, exec .clr s = .next { s with
    frame := { fb := [], inv := false, ovf := false }
    result := Result.clear
    responses := s.responses ++ [0x00000000#32] }) ∧
  (∀ (i : Instr) (s t : State), i ≠ .clr → exec i s = .next t →
    s.frame.fb.length ≤ t.frame.fb.length ∧ (s.frame.inv = true → t.frame.inv = true) ∧
    (s.frame.ovf = true → t.frame.ovf = true)) ∧
  (∀ w : Word, wordOp w = 0x01 → wordArg w ≠ 0 → decode w = .error .reserved)

/-- R67: PUSHB clears the result, appends its bit at position LEN + 1 or, at a full buffer, drops it and sets OVF, which
the next decode reports, and answers the length that results (a 24-bit number); other operand bits are reserved. -/
def Obligations.PushbAppendsOneBit : Prop :=
  (∀ b : Bit, encode (.pushb b) = BitVec.ofNat 32 (0x02000000 + b.toNat)) ∧
  (∀ (b : Bit) (s : State),
    (s.frame.fb.length < s.params.nmax → exec (.pushb b) s = .next { s with
      frame := { s.frame with fb := s.frame.fb ++ [b] }
      result := Result.clear
      responses := s.responses ++ [BitVec.ofNat 32 ((s.frame.fb.length + 1) % 2 ^ 24)] }) ∧
    (s.params.nmax ≤ s.frame.fb.length → exec (.pushb b) s = .next { s with
      frame := { s.frame with ovf := true }
      result := Result.clear
      responses := s.responses ++ [BitVec.ofNat 32 (s.frame.fb.length % 2 ^ 24)] })) ∧
  (∀ (s : State) (i : Instr), s.frame.ovf = true → s.frame.inv = false → decodes i = true →
    ∃ t : State, exec i s = .next t ∧ t.result.st = .eOvf) ∧
  (∀ w : Word, wordOp w = 0x02 → wordArg w / 2 ≠ 0 → decode w = .error .reserved)

/-- R69: PUSHC appends the bit that the character '0' (0x30) or '1' (0x31) stands for, INV set or not, as PUSHB does; any
other symbol is not stored and sets INV and nothing else, also at a full buffer, and is no rejection; while INV is set
every decode fails. -/
def Obligations.PushcValidatesItsSymbol : Prop :=
  (∀ c : BitVec 8, encode (.pushc c) = BitVec.ofNat 32 (0x03000000 + c.toNat)) ∧
  (∀ (b : Bit) (s : State),
    (s.frame.fb.length < s.params.nmax → exec (.pushc (if b then 0x31 else 0x30)) s = .next { s with
      frame := { s.frame with fb := s.frame.fb ++ [b] }
      result := Result.clear
      responses := s.responses ++ [BitVec.ofNat 32 ((s.frame.fb.length + 1) % 2 ^ 24)] }) ∧
    (s.params.nmax ≤ s.frame.fb.length → exec (.pushc (if b then 0x31 else 0x30)) s = .next { s with
      frame := { s.frame with ovf := true }
      result := Result.clear
      responses := s.responses ++ [BitVec.ofNat 32 (s.frame.fb.length % 2 ^ 24)] })) ∧
  (∀ (s : State) (i : Instr), s.frame.inv = true → decodes i = true →
    ∃ t : State, exec i s = .next t ∧ t.result.st = .eInvalid) ∧
  (∀ (c : BitVec 8) (s : State), c ≠ 0x30 → c ≠ 0x31 → exec (.pushc c) s = .next { s with
    frame := { s.frame with inv := true }
    result := Result.clear
    responses := s.responses ++ [BitVec.ofNat 32 (s.frame.fb.length % 2 ^ 24)] }) ∧
  (∀ w : Word, wordOp w = 0x03 → wordArg w / 2 ^ 8 ≠ 0 → decode w = .error .reserved)

/-- R70: PUSHN n, v appends the n bits v[n−1], …, v[0]; those that fit are stored, the rest are dropped and set OVF; it
answers the length that results; the state is the one n PUSHB commands leave. Illegal operands are rejected, nothing
stored and nothing cleared. -/
def Obligations.PushnAppendsItsBits : Prop :=
  (∀ (n : BitVec 5) (v : BitVec 16),
    encode (.pushn n v) = BitVec.ofNat 32 (0x04000000 + n.toNat * 2 ^ 16 + v.toNat)) ∧
  (∀ (n : BitVec 5) (v : BitVec 16) (s : State), 1 ≤ n.toNat → n.toNat ≤ 16 → v.toNat < 2 ^ n.toNat →
    let bits : List Bit := (List.range n.toNat).map fun k => v.getLsbD (n.toNat - 1 - k)
    let fb := s.frame.fb ++ bits.take (s.params.nmax - s.frame.fb.length)
    exec (.pushn n v) s = .next { s with
      frame := { fb := fb
                 inv := s.frame.inv
                 ovf := s.frame.ovf || decide (s.params.nmax < s.frame.fb.length + n.toNat) }
      result := Result.clear
      responses := s.responses ++ [BitVec.ofNat 32 (fb.length % 2 ^ 24)] } ∧
    ∃ t u : State, exec (.pushn n v) s = .next t ∧ runAll (bits.map Instr.pushb) s = .next u ∧
      t = { u with responses := t.responses } ∧
      t.responses.getLast? = u.responses.getLast?) ∧
  (∀ (n : BitVec 5) (v : BitVec 16) (s : State), ¬ (1 ≤ n.toNat ∧ n.toNat ≤ 16 ∧ v.toNat < 2 ^ n.toNat) →
    exec (.pushn n v) s = .next { s with responses := s.responses ++ [0x82000000#32] }) ∧
  (∀ w : Word, wordOp w = 0x04 → ReservedWord w → decode w = .error .reserved)

/-- The pseudo-instruction FRAME, and CLR followed by PUSHSTR, load a frame that fits exactly as it was received, ready
to decode (40_frame_load.md properties, item 1; 30_encoding.md R58). -/
def Obligations.FrameIsLoadedAsReceived : Prop :=
  ∀ (s : State) (bits : List Bit), bits.length ≤ s.params.nmax →
    (∃ t : State, runAll (Pseudo.frame bits).expand s = .next t ∧
      t.frame = { fb := bits, inv := false, ovf := false } ∧ t.result = Result.clear) ∧
    (∃ t : State, runAll (.clr :: (Pseudo.pushStr (bits.map fun b => if b then 0x31 else 0x30)).expand) s = .next t ∧
      t.frame = { fb := bits, inv := false, ovf := false } ∧ t.result = Result.clear)

/-- A frame with a bad symbol, or with more bits than the buffer holds, is never decoded: both decode commands end in
E_INVALID, and in E_OVF, with no payload (10_state.md R18, R19; 60_exceptions.md R127, R128). -/
def Obligations.DamagedLoadIsNeverDecoded : Prop :=
  ∀ (s : State) (i : Instr), decodes i = true →
    (∀ codes : List (BitVec 8), (∃ c ∈ codes, c ≠ 0x30 ∧ c ≠ 0x31) →
      ∃ t : State, runAll (.clr :: codes.map Instr.pushc ++ [i]) s = .next t ∧ t.result.st = .eInvalid ∧
        t.result.pb = []) ∧
    (∀ bits : List Bit, s.params.nmax < bits.length →
      ∃ t : State, runAll (.clr :: bits.map Instr.pushb ++ [i]) s = .next t ∧ t.result.st = .eOvf ∧
        t.frame.fb = bits.take s.params.nmax ∧ t.result.pb = [])

/-! ## The whole machine -/

/-- R36: the frame buffer is append-only: whatever the host does, short of CLR and reset, the bits at the positions
already written stay; no decode changes it at all. -/
def Obligations.FrameBufferIsAppendOnly : Prop :=
  (∀ s t : State, step s = .next t →
    s.frame.fb <+: t.frame.fb ∨
    (t.frame.fb = [] ∧ ∃ (a : HostAction) (rest : List HostAction), s.inputs = a :: rest ∧ BeginsFrame a)) ∧
  (∀ (i : Instr) (s t : State), decodes i = true → exec i s = .next t → t.frame = s.frame)

/-- R18: INV is set by a PUSHC of a bad symbol and by nothing else, is cleared by CLR and reset and by nothing else; the
bad symbol is not stored; while it is set every decode fails with E_INVALID. -/
def Obligations.InvIsSticky : Prop :=
  (∀ (s t : State) (a : HostAction) (rest : List HostAction), s.inputs = a :: rest → step s = .next t →
    (BeginsFrame a → t.frame.inv = false) ∧
    (¬ BeginsFrame a →
      (t.frame.inv = true ↔ s.frame.inv = true ∨
        ∃ c : BitVec 8, a = .command (BitVec.ofNat 32 (0x03000000 + c.toNat)) ∧ c ≠ 0x30 ∧ c ≠ 0x31))) ∧
  (∀ (s t : State) (c : BitVec 8), c ≠ 0x30 → c ≠ 0x31 → exec (.pushc c) s = .next t →
    t.frame = { s.frame with inv := true }) ∧
  (∀ (s : State) (i : Instr), s.frame.inv = true → decodes i = true →
    ∃ t : State, exec i s = .next t ∧ t.result.st = .eInvalid)

/-- R19: OVF is set exactly when a bit is pushed that finds the buffer full; that bit is dropped and the bits before it
are stored; OVF is cleared by CLR and reset only; while it is set, and INV is not, every decode fails with E_OVF. -/
def Obligations.OvfIsStickyAndBitsThatFitAreStored : Prop :=
  (∀ (i : Instr) (s t : State), i ≠ .clr → exec i s = .next t →
    t.frame.fb = s.frame.fb ++ (pushedBits i).take (s.params.nmax - s.frame.fb.length) ∧
    (t.frame.ovf = true ↔ s.frame.ovf = true ∨
      (pushedBits i ≠ [] ∧ s.params.nmax < s.frame.fb.length + (pushedBits i).length))) ∧
  (∀ (s t : State) (a : HostAction) (rest : List HostAction), s.inputs = a :: rest → step s = .next t →
    (BeginsFrame a → t.frame.ovf = false) ∧ (¬ BeginsFrame a → s.frame.ovf = true → t.frame.ovf = true)) ∧
  (∀ (s : State) (i : Instr), s.frame.ovf = true → s.frame.inv = false → decodes i = true →
    ∃ t : State, exec i s = .next t ∧ t.result.st = .eOvf)

/-- The frame never exceeds the capacity, from any state in which it does not (10_state.md R17). The capacity lies in its
bounds and no step changes it (00_scope.md R5; 10_state.md R31). -/
def Obligations.CapacityIsKept : Prop :=
  (∀ s t : State, step s = .next t → t.params = s.params ∧ (Fits s → Fits t)) ∧
  (∀ p : Config.Params, 16 ≤ p.nmax ∧ p.nmax ≤ 2 ^ 24 - 1) ∧ Fits State.reset

/-- The invariant of 10_state.md section 6, all ten items, holds in the reset state (the spec marks the list as its own
inference). -/
def Obligations.InvariantHoldsAtReset : Prop := Invariant State.reset

/-- All ten items of 10_state.md section 6 are kept by every step, whatever the host does, from every state that has
them; with InvariantHoldsAtReset they hold in every reachable state. The spec marks the list as its own inference ("In
every reachable state all of the following hold", "derived: from rule R22 and the decode rules"). -/
def Obligations.StepKeepsTheInvariant : Prop :=
  ∀ s t : State, Invariant s → step s = .next t → Invariant t

/-- R22: the lifetime of the result state. (a) A decode's result does not depend on any earlier result. (b) CLR, every
push that is executed, and reset clear it. (c) NOP, the reads and every rejected command leave it. So it is, in every
state a run reaches, clear or the function of the current frame, ALG and MODE that the decode rules define. -/
def Obligations.ResultStateIsOfTheCurrentFrame : Prop :=
  (∀ (i : Instr) (s s' t t' : State), decodes i = true → s.frame = s'.frame → exec i s = .next t →
    exec i s' = .next t' → t.result = t'.result) ∧
  (∀ (i : Instr) (s t : State), loads i = true → i.wellFormed = true → exec i s = .next t →
    t.result = Result.clear) ∧
  (∀ (s t : State) (w : Word) (rest : List HostAction),
    s.inputs = .reset :: rest ∨ s.inputs = .resetDuring w :: rest → step s = .next t → t.result = Result.clear) ∧
  (∀ (i : Instr) (s t : State), i = .nop ∨ reads i = true → exec i s = .next t → t.result = s.result) ∧
  (∀ (s t : State) (w : Word) (c : CmdError) (rest : List HostAction), s.inputs = .command w :: rest →
    decode w = .error c → step s = .next t → t.result = s.result) ∧
  (ResultOfFrame State.reset ∧ ∀ s t : State, ResultOfFrame s → step s = .next t → ResultOfFrame t)

/-- The frame of every command: what each leaves as it was when it answers a next state. No command changes the
parameters or the host's later actions; one response is appended; only CLR and the pushes change the input-side state,
and of it PUSHB and PUSHN never INV, a bad symbol only INV; only those and the decodes change the result state
(10_state.md R16, R18, R19, R22; 40_frame_load.md R65 to R70; 43_readout.md R113). -/
def Obligations.CommandFrames : Prop :=
  ∀ (i : Instr) (s t : State), exec i s = .next t →
    t.params = s.params ∧ t.inputs = s.inputs ∧ (∃ r : Word, t.responses = s.responses ++ [r]) ∧
    (loads i = false → t.frame = s.frame) ∧
    (loads i = false → decodes i = false → t.result = s.result) ∧
    (∀ b : Bit, i = .pushb b → t.frame.inv = s.frame.inv) ∧
    (∀ (n : BitVec 5) (v : BitVec 16), i = .pushn n v → t.frame.inv = s.frame.inv) ∧
    (∀ c : BitVec 8, i = .pushc c → pushedBits i = [] → t.frame.fb = s.frame.fb ∧ t.frame.ovf = s.frame.ovf) ∧
    (∀ c : BitVec 8, i = .pushc c → pushedBits i ≠ [] → t.frame.inv = s.frame.inv)

/-! ## The Hamming decoder -/

/-- R76: the parity layout of a code block of length M: the powers of two up to M, ascending, bitlen(M) of them; the
global parity position N is never one, the layout being that of the code block. -/
def Obligations.ParityLayoutIsThePowersOfTwo : Prop :=
  (∀ M i : Nat, i ∈ parityPositions M ↔ ∃ k : Nat, i = 2 ^ k ∧ 2 ^ k ≤ M) ∧
  (∀ M i : Nat, i ∈ parityPositions M ↔ 1 ≤ i ∧ i ≤ M ∧ isPow2 i = true) ∧
  (∀ M : Nat, (parityPositions M).Pairwise (· < ·) ∧ (parityPositions M).length = bitlen M) ∧
  (∀ N : Nat, N ∉ parityPositions (N - 1)) ∧
  parityPositions 0 = [] ∧ parityPositions 1 = [1] ∧ parityPositions 3 = [1, 2] ∧ parityPositions 7 = [1, 2, 4] ∧
  parityPositions 15 = [1, 2, 4, 8]

/-- R78: parity position p = 2^k covers the positions i with floor(i / p) odd, itself among them; the covered sets up to
15 are those of the rule's table. -/
def Obligations.CoveredPositionsAreTheOddRuns : Prop :=
  (∀ k i : Nat, covers (2 ^ k) i = true ↔ i / 2 ^ k % 2 = 1) ∧
  (∀ k : Nat, covers (2 ^ k) (2 ^ k) = true) ∧
  (positions 15).filter (covers 1) = [1, 3, 5, 7, 9, 11, 13, 15] ∧
  (positions 15).filter (covers 2) = [2, 3, 6, 7, 10, 11, 14, 15] ∧
  (positions 15).filter (covers 4) = [4, 5, 6, 7, 12, 13, 14, 15] ∧
  (positions 15).filter (covers 8) = [8, 9, 10, 11, 12, 13, 14, 15]

/-- R79 and R82: a group's parity is odd exactly when an odd number of the positions it covers hold a 1; the overall
parity GPC is odd exactly when an odd number of all the frame's bits are 1, the global parity bit included, so that
frames at odd distance differ in it. -/
def Obligations.ParitiesCountOnes : Prop :=
  (∀ (code : List Bit) (p : Nat), groupParity code p = true ↔
    ((positions code.length).filter fun i => covers p i && bitAt code i).length % 2 = 1) ∧
  (∀ fb : List Bit, globalComputed fb = true ↔ (fb.filter fun b => b).length % 2 = 1) ∧
  (∀ f g : List Bit, f.length = g.length →
    (globalComputed f ≠ globalComputed g ↔ distance f g % 2 = 1)) ∧
  (∀ s t : State, Clean s → exec (.dech true) s = .next t → t.result.gpc = globalComputed s.frame.fb)

/-- R80: the syndrome is the sum, and the bitwise OR, of the parity positions whose group is odd; it is below
2^bitlen(M), so it fits 24 bits whenever M does; whenever M + 1 is no power of two there is a code block of M positions
whose syndrome lies between M + 1 and 2^bitlen(M) − 1 (for M = 6 it is 7); for an empty code block it is 0. -/
def Obligations.SyndromeIsTheSumOfOddGroups : Prop :=
  (∀ code : List Bit,
    syndrome code =
      (parityPositions code.length).foldl (fun syn p => if groupParity code p then syn + p else syn) 0 ∧
    syndrome code =
      (parityPositions code.length).foldl (fun syn p => if groupParity code p then syn ||| p else syn) 0 ∧
    syndrome code < 2 ^ bitlen code.length ∧ (code.length < 2 ^ 24 → syndrome code < 2 ^ 24)) ∧
  (∀ M : Nat, (∀ k : Nat, M + 1 ≠ 2 ^ k) →
    ∃ code : List Bit, code.length = M ∧ M + 1 ≤ syndrome code ∧ syndrome code ≤ 2 ^ bitlen M - 1) ∧
  (∃ code : List Bit, code.length = 6 ∧ syndrome code = 7) ∧ parityPositions 0 = [] ∧ syndrome [] = 0

/-- The syndrome is the XOR of the positions that hold a 1, and flipping the bit at position e changes it from syn to
syn XOR e (41_hamming.md section 4, the equivalent form, which the spec marks as its own inference: "flipping the bit at
one position e of the code block changes the syndrome from syn to `syn XOR e`"). -/
def Obligations.SyndromeIsTheXorOfOnes : Prop :=
  ∀ code : List Bit,
    syndrome code = ((positions code.length).filter (bitAt code)).foldl (· ^^^ ·) 0 ∧
    ∀ e : Nat, 1 ≤ e → e ≤ code.length → syndrome (flipBit code e) = syndrome code ^^^ e

/-- R83: DECH 1 in class H_NOERR. -/
def Obligations.DechNoError : Prop :=
  ∀ s : State, Clean s →
    let fb := s.frame.fb
    let code := fb.take (fb.length - 1)
    syndrome code = 0 → globalComputed fb = false →
    exec (.dech true) s = .next { s with
      result := { st := .hNoErr, alg := false, mode := true, syn := 0, gpc := false,
                  gpb := bitAt fb fb.length, cpos := 0, s1 := 0, s2 := 0, rxck := 0, pb := payload code, er := [] }
      responses := s.responses ++ [0x00000021#32] }

/-- R84: DECH 1 in class H_GPERR: the global parity bit, as received, is the one entry; nothing is corrected. -/
def Obligations.DechGlobalParityError : Prop :=
  ∀ s : State, Clean s →
    let fb := s.frame.fb
    let code := fb.take (fb.length - 1)
    syndrome code = 0 → globalComputed fb = true →
    exec (.dech true) s = .next { s with
      result := { st := .hGpErr, alg := false, mode := true, syn := 0, gpc := true,
                  gpb := bitAt fb fb.length, cpos := 0, s1 := 0, s2 := 0, rxck := 0, pb := payload code,
                  er := [{ v := bitAt fb fb.length, pos := BitVec.ofNat 24 fb.length }] }
      responses := s.responses ++ [0x00000022#32] }

/-- DECH 1 in class H_CORR (41_hamming.md R85): the bit the syndrome names is flipped in the decoder's copy and no other,
the entry holds it as received, and the corrected code block has syndrome 0 (the last the spec marks as its own
inference: "After the flip the syndrome of `code'` is 0"). -/
def Obligations.DechCorrectsOneBit : Prop :=
  ∀ s : State, Clean s →
    let fb := s.frame.fb
    let code := fb.take (fb.length - 1)
    let syn := syndrome code
    syn ≠ 0 → globalComputed fb = true → syn ≤ code.length →
    exec (.dech true) s = .next { s with
      result := { st := .hCorr, alg := false, mode := true, syn := BitVec.ofNat 24 syn, gpc := true,
                  gpb := bitAt fb fb.length, cpos := BitVec.ofNat 24 syn, s1 := 0, s2 := 0, rxck := 0,
                  pb := payload (flipBit code syn),
                  er := [{ v := bitAt code syn, pos := BitVec.ofNat 24 syn }] }
      responses := s.responses ++ [0x00000023#32] } ∧
    (∀ i : Nat, bitAt (flipBit code syn) i = if i = syn then !bitAt code syn else bitAt code i) ∧
    syndrome (flipBit code syn) = 0

/-- DECH 1 in class H_OOR (41_hamming.md R86): nothing is flipped and the one entry reports the syndrome with value 0. -/
def Obligations.DechSyndromeOutOfRange : Prop :=
  ∀ s : State, Clean s →
    let fb := s.frame.fb
    let code := fb.take (fb.length - 1)
    let syn := syndrome code
    syn ≠ 0 → globalComputed fb = true → code.length < syn →
    exec (.dech true) s = .next { s with
      result := { st := .hOor, alg := false, mode := true, syn := BitVec.ofNat 24 syn, gpc := true,
                  gpb := bitAt fb fb.length, cpos := 0, s1 := 0, s2 := 0, rxck := 0, pb := payload code,
                  er := [{ v := false, pos := BitVec.ofNat 24 syn }] }
      responses := s.responses ++ [0x00000025#32] }

/-- R88, and the loop of 41_hamming.md R87: DECH 1 in class H_DBL: the candidate pairs i < j = i XOR syn ≤ M in ascending order of i, two entries a
pair, the lower position first; then, if the syndrome names a position of the code block, that position with the global
parity bit. Nothing is corrected. -/
def Obligations.DechListsCandidatePairs : Prop :=
  ∀ s : State, Clean s →
    let fb := s.frame.fb
    let code := fb.take (fb.length - 1)
    let syn := syndrome code
    let entry : Nat → ErrEntry := fun i => { v := bitAt fb i, pos := BitVec.ofNat 24 i }
    syn ≠ 0 → globalComputed fb = false →
    exec (.dech true) s = .next { s with
      result := { st := .hDbl, alg := false, mode := true, syn := BitVec.ofNat 24 syn, gpc := false,
                  gpb := bitAt fb fb.length, cpos := 0, s1 := 0, s2 := 0, rxck := 0, pb := payload code,
                  er := (((List.range' 1 code.length).filter fun i => i < i ^^^ syn ∧ i ^^^ syn ≤ code.length).flatMap
                          fun i => [entry i, entry (i ^^^ syn)]) ++
                        if syn ≤ code.length then [entry syn, entry fb.length] else [] }
      responses := s.responses ++ [0x00000024#32] }

/-- The candidate list holds exactly the pairs of positions of the code block whose XOR is the syndrome: each such pair
stands as two consecutive entries at an even index, lower position first, every two entries at an even index are such a
pair, the lower positions ascend, and no position occurs twice (41_hamming.md R87). -/
def Obligations.CandidatePairsAreExactlyThePairs : Prop :=
  ∀ (code : List Bit) (syn : Nat), code.length < 2 ^ 24 → syn ≠ 0 → syn < 2 ^ 24 →
    (∀ i j : Nat, 1 ≤ i → i < j → j ≤ code.length →
      (i ^^^ j = syn ↔ ∃ t : Nat,
        (candidatePairs code syn)[2 * t]? = some { v := bitAt code i, pos := BitVec.ofNat 24 i } ∧
        (candidatePairs code syn)[2 * t + 1]? = some { v := bitAt code j, pos := BitVec.ofNat 24 j })) ∧
    (∀ t : Nat, 2 * t < (candidatePairs code syn).length → ∃ i j : Nat,
      1 ≤ i ∧ i < j ∧ j ≤ code.length ∧ i ^^^ j = syn ∧
      (candidatePairs code syn)[2 * t]? = some { v := bitAt code i, pos := BitVec.ofNat 24 i } ∧
      (candidatePairs code syn)[2 * t + 1]? = some { v := bitAt code j, pos := BitVec.ofNat 24 j }) ∧
    (∀ (t u : Nat) (a b : ErrEntry), t < u → (candidatePairs code syn)[2 * t]? = some a →
      (candidatePairs code syn)[2 * u]? = some b → a.pos.toNat < b.pos.toNat) ∧
    ((candidatePairs code syn).map ErrEntry.pos).Nodup ∧ (candidatePairs code syn).length % 2 = 0 ∧
    BitVec.ofNat 24 syn ∉ (candidatePairs code syn).map ErrEntry.pos

/-- R89: DECH 0, the plain mode: the whole frame is the code block and there is no global parity bit. -/
def Obligations.DechPlainMode : Prop :=
  ∀ s : State, Clean s →
    let code := s.frame.fb
    let syn := syndrome code
    let result : Status → Nat → List Bit → List ErrEntry → Result := fun st cpos pb er =>
      { st := st, alg := false, mode := false, syn := BitVec.ofNat 24 syn, gpc := false, gpb := false,
        cpos := BitVec.ofNat 24 cpos, s1 := 0, s2 := 0, rxck := 0, pb := pb, er := er }
    (syn = 0 → exec (.dech false) s = .next { s with
      result := result .hNoErr 0 (payload code) []
      responses := s.responses ++ [0x00000001#32] }) ∧
    (syn ≠ 0 → syn ≤ code.length → exec (.dech false) s = .next { s with
      result := result .hCorr syn (payload (flipBit code syn)) [{ v := bitAt code syn, pos := BitVec.ofNat 24 syn }]
      responses := s.responses ++ [0x00000003#32] }) ∧
    (code.length < syn → exec (.dech false) s = .next { s with
      result := result .hOor 0 (payload code) [{ v := false, pos := BitVec.ofNat 24 syn }]
      responses := s.responses ++ [0x00000005#32] })

/-- The size of the error report in each class, and no position reported twice (41_hamming.md section 5, which the spec
marks as its own inference: "the report is empty exactly when no error was found"). -/
def Obligations.ReportSizePerClass : Prop :=
  ∀ (s : State) (m : Bit), Clean s → Fits s → ∃ t : State, exec (.dech m) s = .next t ∧
    (t.result.st = .hNoErr → t.result.er.length = 0) ∧
    (t.result.st ∈ [Status.hGpErr, .hCorr, .hOor] → t.result.er.length = 1) ∧
    (t.result.st = .hDbl → t.result.er.length % 2 = 0 ∧ 2 ≤ t.result.er.length ∧
      t.result.er.length ≤ s.frame.fb.length ∧
      t.result.er.length =
        2 * ((List.range' 1 (s.frame.fb.length - 1)).filter fun i =>
              i < i ^^^ t.result.syn.toNat ∧ i ^^^ t.result.syn.toNat ≤ s.frame.fb.length - 1).length +
          if t.result.syn.toNat ≤ s.frame.fb.length - 1 then 2 else 0) ∧
    t.result.st ∈ [Status.hNoErr, .hGpErr, .hCorr, .hDbl, .hOor] ∧
    (t.result.er.map ErrEntry.pos).Nodup

/-- R91: the payload is the code block after correction without its parity positions, in order, of length
M − bitlen(M): 0 for M ≤ 2, 1 for M = 3 and M = 4, 4 for M = 7, 11 for M = 15. It is returned in every class, corrected
in H_CORR only; after a decode failure there is none. -/
def Obligations.PayloadIsTheDataBits : Prop :=
  (∀ code : List Bit,
    payload code =
      (((List.range' 1 code.length).filter fun i => i ∉ parityPositions code.length).map (bitAt code)) ∧
    (payload code).length = code.length - bitlen code.length) ∧
  (∀ code : List Bit, (code.length ≤ 2 → payload code = []) ∧
    (code.length = 3 ∨ code.length = 4 → (payload code).length = 1) ∧
    (code.length = 7 → (payload code).length = 4) ∧ (code.length = 15 → (payload code).length = 11)) ∧
  (∀ (s t : State) (m : Bit), exec (.dech m) s = .next t →
    let code := if m then s.frame.fb.take (s.frame.fb.length - 1) else s.frame.fb
    (Clean s → t.result.pb = payload (if t.result.st = .hCorr then flipBit code (syndrome code) else code)) ∧
    (¬ Clean s → t.result.pb = []))

/-- R93, and the same of DECF: a decode leaves the frame alone, repeated it gives the same result state and response,
and after any decode another decode gives what it would have given at once. -/
def Obligations.DecodesArePureAndIdempotent : Prop :=
  ∀ (s : State) (i j : Instr), decodes i = true → decodes j = true →
    ∃ t u v : State, exec i s = .next t ∧ exec j t = .next u ∧ exec j s = .next v ∧
      t.frame = s.frame ∧ u.frame = s.frame ∧ u.result = v.result ∧
      u.responses.getLast? = v.responses.getLast? ∧
      (i = j → u.result = t.result ∧ u.responses.getLast? = t.responses.getLast?)

/-- R127 to R130: the pre-checks of both decode commands in their order; each failure is an executed command that
records the status, ALG and MODE, clears everything else of the result state and leaves the frame, so that the decode
repeated fails again; DECH never ends in E_SHORT and DECF never in E_EMPTY. -/
def Obligations.DecodeFailuresInPriority : Prop :=
  ∀ (s : State) (m : Bit),
    let fails : Instr → Status → Bit → Bit → Word → Prop := fun i st alg mode rsp =>
      exec i s = .next { s with
        result := { st := st, alg := alg, mode := mode, syn := 0, gpc := false, gpb := false, cpos := 0,
                    s1 := 0, s2 := 0, rxck := 0, pb := [], er := [] }
        responses := s.responses ++ [rsp] }
    (s.frame.inv = true →
      fails (.dech m) .eInvalid false m (if m then 0x2C else 0x0C) ∧ fails .decf .eInvalid true false 0x1C) ∧
    (s.frame.inv = false → s.frame.ovf = true →
      fails (.dech m) .eOvf false m (if m then 0x2D else 0x0D) ∧ fails .decf .eOvf true false 0x1D) ∧
    (s.frame.inv = false → s.frame.ovf = false → s.frame.fb.length = 0 →
      fails (.dech m) .eEmpty false m (if m then 0x2E else 0x0E)) ∧
    (s.frame.inv = false → s.frame.ovf = false → s.frame.fb.length < 16 → fails .decf .eShort true false 0x1F) ∧
    (∀ t : State, exec (.dech m) s = .next t → t.result.st ≠ .eShort) ∧
    (∀ t : State, exec .decf s = .next t → t.result.st ≠ .eEmpty)

/-- One flipped bit of a valid SECDED frame is always located, and the payload is that of the frame as sent
(41_hamming.md section 8, (b), which the spec marks as its own inference). -/
def Obligations.SingleFlipIsLocatedAndCorrected : Prop :=
  ∀ (s : State) (fb : List Bit) (e : Nat), ValidSecded fb → fb.length < 2 ^ 24 → 1 ≤ e → e ≤ fb.length →
    s.frame = cleanFrame (flipBit fb e) →
    ∃ t : State, exec (.dech true) s = .next t ∧
      t.result.er = [{ v := !bitAt fb e, pos := BitVec.ofNat 24 e }] ∧
      t.result.pb = (hammingResult (cleanFrame fb) true).pb ∧
      (e < fb.length → t.result.st = .hCorr ∧ t.result.cpos = BitVec.ofNat 24 e) ∧
      (e = fb.length → t.result.st = .hGpErr ∧ t.result.cpos = 0)

/-- Two flipped bits of a valid SECDED frame are always detected, never corrected, and the flipped pair is among the
candidates as two consecutive entries (41_hamming.md section 8, (c), which the spec marks as its own inference). -/
def Obligations.DoubleFlipIsDetectedWithItsPair : Prop :=
  ∀ (s : State) (fb : List Bit) (e₁ e₂ : Nat), ValidSecded fb → fb.length < 2 ^ 24 →
    1 ≤ e₁ → e₁ < e₂ → e₂ ≤ fb.length → s.frame = cleanFrame (flipBit (flipBit fb e₁) e₂) →
    ∃ t : State, exec (.dech true) s = .next t ∧ t.result.st = .hDbl ∧ t.result.cpos = 0 ∧
      ∃ k : Nat, t.result.er[2 * k]? = some { v := !bitAt fb e₁, pos := BitVec.ofNat 24 e₁ } ∧
        t.result.er[2 * k + 1]? = some { v := !bitAt fb e₂, pos := BitVec.ofNat 24 e₂ }

/-- However many bits of a valid SECDED frame are flipped, their number's parity decides between the classes of odd and
of even errors; H_OOR needs at least three and an undetected error at least four (41_hamming.md section 8, which the
spec marks as its own inference; section 5: "it needs at least three"). -/
def Obligations.FlipCountDecidesTheClass : Prop :=
  ∀ (s : State) (f g : List Bit), ValidSecded f → f.length < 2 ^ 24 → g.length = f.length →
    s.frame = cleanFrame g →
    ∃ t : State, exec (.dech true) s = .next t ∧
      (distance f g % 2 = 1 → t.result.st ∈ [Status.hCorr, .hGpErr, .hOor]) ∧
      (distance f g % 2 = 0 → t.result.st ∈ [Status.hNoErr, .hDbl]) ∧
      (t.result.st = .hOor → 3 ≤ distance f g) ∧
      (t.result.st = .hNoErr → g ≠ f → 4 ≤ distance f g)

/-! ## The Fletcher-16 verifier -/

/-- R107 to R109: DECF on a frame of at least 16 bits: the two accumulators and the received field are kept, the
data bits are released exactly when (S2 << 8) + S1 equals the received field, and everything of the Hamming result is
clear; with a non-zero operand the command is rejected. -/
def Obligations.DecfVerifiesTheChecksum : Prop :=
  encode .decf = 0x11000000#32 ∧
  (∀ s : State, s.frame.inv = false → s.frame.ovf = false → 16 ≤ s.frame.fb.length →
    let fb := s.frame.fb
    let data := fb.take (fb.length - 16)
    let a := sums (dataBytes data)
    let matched := a.s2 * 2 ^ 8 + a.s1 = receivedChecksum fb
    exec .decf s = .next { s with
      result := { st := if matched then .fOk else .fMismatch
                  alg := true, mode := false, syn := 0, gpc := false, gpb := false, cpos := 0
                  s1 := BitVec.ofNat 8 a.s1, s2 := BitVec.ofNat 8 a.s2
                  rxck := BitVec.ofNat 16 (receivedChecksum fb)
                  pb := if matched then data else []
                  er := [] }
      responses := s.responses ++ [if matched then 0x00000018#32 else 0x00000019#32] }) ∧
  (∀ w : Word, wordOp w = 0x11 → wordArg w ≠ 0 → decode w = .error .reserved)

/-- R103: the received checksum is the last 16 positions, position N − 15 its bit 15 and position N its bit 0. -/
def Obligations.ReceivedChecksumIsBigEndian : Prop :=
  ∀ fb : List Bit, 16 ≤ fb.length →
    receivedChecksum fb < 2 ^ 16 ∧
    ∀ k : Nat, k < 16 → (receivedChecksum fb).testBit (15 - k) = bitAt fb (fb.length - 15 + k)

/-- R104: the data bits make ceil(D / 8) bytes, each most significant bit first, the last padded on the right with
zeros; no data, no bytes. -/
def Obligations.DataBytesAreMostSignificantFirst : Prop :=
  ∀ data : List Bit,
    (dataBytes data).length = data.length / 8 + (if data.length % 8 = 0 then 0 else 1) ∧
    ∀ (t : Nat) (b : Nat), (dataBytes data)[t]? = some b →
      b < 2 ^ 8 ∧ ∀ k : Nat, k < 8 →
        b.testBit (7 - k) = if 8 * t + k + 1 ≤ data.length then bitAt data (8 * t + k + 1) else false

/-- R105, R106: the accumulators are exact modulo 255 and never hold 255; one conditional subtraction does the reduction; a
byte of value 255 leaves sum1 as it was; without bytes both are 0. -/
def Obligations.AccumulatorsAreExactModulo255 : Prop :=
  (∀ bytes : List Nat, (sums bytes).s1 ≤ 254 ∧ (sums bytes).s2 ≤ 254 ∧ (sums bytes).s1 = bytes.sum % 255) ∧
  (∀ (bytes : List Nat) (b : Nat), b ≤ 255 →
    let a := sums bytes
    let x := a.s1 + b
    let s1 := if x ≤ 254 then x else x - 255
    let y := a.s2 + s1
    sums (bytes ++ [b]) = { s1 := s1, s2 := if y ≤ 254 then y else y - 255 } ∧ x ≤ 509 ∧ y ≤ 508 ∧
      (b = 255 → s1 = a.s1)) ∧
  sums [] = { s1 := 0, s2 := 0 }

/-- A frame whose checksum field holds the checksum of its data verifies and gives the data back (42_fletcher.md section
3, "Round trip", which the spec marks as its own inference). -/
def Obligations.FletcherRoundTrip : Prop :=
  ∀ (s : State) (data : List Bit),
    let a := sums (dataBytes data)
    s.frame = cleanFrame (data ++ fieldBits 16 (a.s2 * 2 ^ 8 + a.s1)) →
    ∃ t : State, exec .decf s = .next t ∧ t.result.st = .fOk ∧ t.result.pb = data

/-- One flipped bit of a valid Fletcher-16 frame, in the data or in the field, is always detected and no payload is
released (42_fletcher.md section 3, (b), which the spec marks as its own inference). -/
def Obligations.FletcherSingleFlipIsDetected : Prop :=
  ∀ (s : State) (fb : List Bit) (e : Nat), ValidFletcher fb → 1 ≤ e → e ≤ fb.length →
    s.frame = cleanFrame (flipBit fb e) →
    ∃ t : State, exec .decf s = .next t ∧ t.result.st = .fMismatch ∧ t.result.pb = []

/-- What the checksum cannot see: a byte 0x00 against a byte 0xFF, zero bytes before the data, zero bits that fill the
last byte; and a received field with a byte 0xFF never matches (42_fletcher.md section 3, (c) and (d), which the spec
marks as its own inference). -/
def Obligations.FletcherBlindSpots : Prop :=
  (∀ xs ys : List Nat, sums (xs ++ [0] ++ ys) = sums (xs ++ [255] ++ ys)) ∧
  (∀ (k : Nat) (xs : List Nat), sums (List.replicate k 0 ++ xs) = sums xs) ∧
  (∀ data : List Bit, dataBytes (data ++ List.replicate ((8 - data.length % 8) % 8) false) = dataBytes data) ∧
  (∀ s t : State, s.frame.inv = false → s.frame.ovf = false → 16 ≤ s.frame.fb.length → exec .decf s = .next t →
    receivedChecksum s.frame.fb % 2 ^ 8 = 255 ∨ receivedChecksum s.frame.fb / 2 ^ 8 = 255 →
    t.result.st = .fMismatch)

/-! ## Reading out -/

/-- R114: every register of the map, by its index, and every other index rejected; with ST = 0, in every state that has
the invariant's second item (StepKeepsTheInvariant), all the result registers read 0. -/
def Obligations.RdsReadsEveryRegister : Prop :=
  (∀ r : Pos, encode (.rds r) = BitVec.ofNat 32 (0x20000000 + r.toNat)) ∧
  ∀ s : State,
    let reads : Pos → Nat → Prop := fun r v =>
      exec (.rds r) s = .next { s with responses := s.responses ++ [BitVec.ofNat 32 v] }
    reads 0 s.params.nmax ∧
    reads 1 (s.frame.fb.length % 2 ^ 24) ∧
    reads 2 (s.frame.inv.toNat + s.frame.ovf.toNat * 2) ∧
    reads 3 (s.result.st.code.toNat + s.result.alg.toNat * 2 ^ 4 + s.result.mode.toNat * 2 ^ 5) ∧
    reads 4 s.result.syn.toNat ∧
    reads 5 (s.result.gpc.toNat + s.result.gpb.toNat * 2) ∧
    reads 6 s.result.cpos.toNat ∧
    reads 7 (s.result.pb.length % 2 ^ 24) ∧
    reads 8 (s.result.er.length % 2 ^ 24) ∧
    reads 9 (s.result.s2.toNat * 2 ^ 8 + s.result.s1.toNat) ∧
    reads 10 s.result.rxck.toNat ∧
    (NoneIsClear s → s.result.st = .none → ∀ r : Pos, 3 ≤ r.toNat → r.toNat ≤ 10 → reads r 0) ∧
    ∀ r : Pos, 10 < r.toNat →
      exec (.rds r) s = .next { s with responses := s.responses ++ [0x83000000#32] }

/-- R116: RDF p answers the bit at position p as received, for 1 ≤ p ≤ LEN, and rejects every other position, 0
included; no decode changes what it answers. -/
def Obligations.RdfReadsTheReceivedBit : Prop :=
  (∀ p : Pos, encode (.rdf p) = BitVec.ofNat 32 (0x21000000 + p.toNat)) ∧
  ∀ (s : State) (p : Pos),
    (∀ b : Bit, p ≠ 0 → s.frame.fb[p.toNat - 1]? = some b →
      exec (.rdf p) s = .next { s with responses := s.responses ++ [BitVec.ofNat 32 b.toNat] }) ∧
    (p = 0 ∨ s.frame.fb.length < p.toNat →
      exec (.rdf p) s = .next { s with responses := s.responses ++ [0x83000000#32] }) ∧
    (∀ (i : Instr) (t u v : State), decodes i = true → exec i s = .next t → exec (.rdf p) t = .next u →
      exec (.rdf p) s = .next v → u.responses.getLast? = v.responses.getLast?)

/-- RDP k answers payload bit k, for k < PLEN, and rejects every other index (43_readout.md R117). -/
def Obligations.RdpReadsThePayload : Prop :=
  (∀ k : Pos, encode (.rdp k) = BitVec.ofNat 32 (0x22000000 + k.toNat)) ∧
  ∀ (s : State) (k : Pos),
    (∀ b : Bit, s.result.pb[k.toNat]? = some b →
      exec (.rdp k) s = .next { s with responses := s.responses ++ [BitVec.ofNat 32 b.toNat] }) ∧
    (s.result.pb.length ≤ k.toNat →
      exec (.rdp k) s = .next { s with responses := s.responses ++ [0x83000000#32] })

/-- RDE k answers (v << 24) + pos of report entry k, for k < ELEN, and rejects every other index (43_readout.md R118). -/
def Obligations.RdeReadsTheReport : Prop :=
  (∀ k : Pos, encode (.rde k) = BitVec.ofNat 32 (0x23000000 + k.toNat)) ∧
  ∀ (s : State) (k : Pos),
    (∀ e : ErrEntry, s.result.er[k.toNat]? = some e →
      exec (.rde k) s = .next { s with responses := s.responses ++ [BitVec.ofNat 32 (e.v.toNat * 2 ^ 24 + e.pos.toNat)] }) ∧
    (s.result.er.length ≤ k.toNat →
      exec (.rde k) s = .next { s with responses := s.responses ++ [0x83000000#32] })

/-- R113: the reads change no state, in any state; repeated after any commands that write no state (NOP, reads, and words
that are rejected) they answer the same word; no operand of theirs is reserved, and an index that addresses nothing is
rejected with C_RANGE and nothing else happens. -/
def Obligations.ReadsChangeNothing : Prop :=
  (∀ (i : Instr) (s : State), reads i = true → ∃ r : Word,
    exec i s = .next { s with responses := s.responses ++ [r] } ∧
    ∀ ws : List Word, (∀ w ∈ ws, ∀ j : Instr, decode w = .ok j → j = .nop ∨ reads j = true) →
      ∃ t : State, runWords ws s = .next t ∧ t.frame = s.frame ∧ t.result = s.result ∧
        exec i t = .next { t with responses := t.responses ++ [r] }) ∧
  (∀ (s : State) (w : Word), OutOfRangeWord w s →
    runCommand w s = .next { s with responses := s.responses ++ [0x83000000#32] }) ∧
  (∀ w : Word, wordOp w ∈ [0x20, 0x21, 0x22, 0x23] → ∃ i : Instr, decode w = .ok i ∧ reads i = true)

/-- The source's result shapes: every decode that executed stands for the shape its status calls for, with the algorithm
of the command and, for an error, the name of the status; every word that is rejected stands for an error without an algorithm, its reason the name of the command
error; a command with no result held, and not rejected, stands for none, which is the model's reading of the tables (log
entry 16) (43_readout.md R119; 60_exceptions.md R137). -/
def Obligations.OutcomesMapToTheSourcesShapes : Prop :=
  (∀ (i : Instr) (s : State), decodes i = true → ∃ (t : State) (rsp : Word) (x : SourceResponse),
    exec i s = .next t ∧ t.responses = s.responses ++ [rsp] ∧ sourceResponse rsp t = some x ∧
    let alg : Algorithm := if i = .decf then .fletcher16 else .hamming
    let code := t.result.st.code.toNat
    let failsWith : String → Prop := fun reason => statusOf x = .error ∧ x = .error (some alg) (some reason)
    code ∈ [1, 2, 3, 4, 5, 8, 9, 12, 13, 14, 15] ∧
    (code = 9 → failsWith "F_MISMATCH") ∧ (code = 12 → failsWith "E_INVALID") ∧ (code = 13 → failsWith "E_OVF") ∧
    (code = 14 → failsWith "E_EMPTY") ∧ (code = 15 → failsWith "E_SHORT") ∧
    (code ∈ [1, 2, 3, 4, 5, 8] → statusOf x = .ok ∧
      x = .ok alg t.result.pb s.frame.fb.length t.result.pb.length t.result.er)) ∧
  (∀ (w : Word) (s : State), ∃ (t : State) (rsp : Word),
    runCommand w s = .next t ∧ t.responses = s.responses ++ [rsp] ∧
    (IllegalWord w → sourceResponse rsp t = some (.error none (some "C_ILLEGAL"))) ∧
    (¬ IllegalWord w → ReservedWord w → sourceResponse rsp t = some (.error none (some "C_RESERVED"))) ∧
    (¬ IllegalWord w → ¬ ReservedWord w → OutOfRangeWord w s →
      sourceResponse rsp t = some (.error none (some "C_RANGE"))) ∧
    (¬ IllegalWord w → ¬ ReservedWord w → ¬ OutOfRangeWord w s → t.result.st = .none → sourceResponse rsp t = none))

/-! ## The pins -/

/-- The handshake of 70_reset_and_hazards.md R148: a command is accepted only when both of its pins are high; from that
edge on `cmd_ready` is low, and `rsp_valid` is low until, as many edges after the accepting one as the free latency says
(0 not excluded), the response is presented and the state is that of the command; it is held until it is taken, and its
taking delivers it and makes the block ready. The free latency and the moment of the state change are the model's choice
within the rule (log entry 6). -/
def Obligations.PinHandshake : Prop :=
  ∀ (p : PinState) (i : PinIn), i.rst = false →
    let low : PinOut := { cmdReady := false, rspValid := false, rsp := none }
    (p.phase = .ready → p.out false = { cmdReady := true, rspValid := false, rsp := none } ∧
      (i.cmdValid = false → clockEdge i p = p) ∧
      (i.cmdValid = true → ∀ is : List PinIn, (∀ j ∈ is, j.rst = false) →
        (is.length < p.latency i.cmd → (pinRun (i :: is) p).out false = low) ∧
        (is.length = p.latency i.cmd → pinRun (i :: is) p =
          { core := commandEffect i.cmd p.core
            phase := .answering i.cmd (commandResponse i.cmd p.core)
            accepted := p.accepted + 1 }))) ∧
    (∀ (w : Word) (k : Nat), p.phase = .busy w k → p.out false = low ∧
      ∀ is : List PinIn, (∀ j ∈ is, j.rst = false) →
        (is.length < k + 1 → (pinRun is p).out false = low) ∧
        (is.length = k + 1 →
          pinRun is p =
            { p with core := commandEffect w p.core, phase := .answering w (commandResponse w p.core) })) ∧
    (∀ w r : Word, p.phase = .answering w r →
      p.out false = { cmdReady := false, rspValid := true, rsp := some r } ∧
      (i.rspReady = false → clockEdge i p = p) ∧
      (i.rspReady = true → clockEdge i p =
        { p with core := { p.core with responses := p.core.responses ++ [r] }, phase := .ready })) ∧
    p.out true = low

/-- The pin level carries the transaction level: whatever the pins do, from a ready block to a ready block, the state
and the delivered responses are those of the transactions that the edges stand for, resets and commands cut short
included (00_scope.md R3; 70_reset_and_hazards.md R140, R148). -/
def Obligations.PinsRefineTransactions : Prop :=
  ∀ (p : PinState) (is : List PinIn), p.phase = .ready → (pinRun is p).phase = .ready →
    Sys2Proof.core.run (pinActions is p).length { p.core with inputs := pinActions is p } =
      .next { (pinRun is p).core with inputs := [] }
end

