-- ==== Sys2Proof/Laws/State.lean ====
section
/-! SUPPORT. What each named update of the state does to each of its fields, and the bounds of NMAX. -/

namespace Sys2Proof.Machine

/-! ### NMAX -/

theorem nmax_ge (p : Config.Params) : 16 ≤ p.nmax := Nat.le_add_left 16 _

theorem nmax_lt (p : Config.Params) : p.nmax < 2 ^ 24 := by
  have := p.spare.isLt
  simp only [Config.Params.nmax]
  omega

/-! ### withFrame -/

@[simp] theorem withFrame_params (s : State) (f : Frame) : (s.withFrame f).params = s.params := rfl
@[simp] theorem withFrame_frame (s : State) (f : Frame) : (s.withFrame f).frame = f := rfl
@[simp] theorem withFrame_result (s : State) (f : Frame) : (s.withFrame f).result = s.result := rfl
@[simp] theorem withFrame_inputs (s : State) (f : Frame) : (s.withFrame f).inputs = s.inputs := rfl
@[simp] theorem withFrame_responses (s : State) (f : Frame) : (s.withFrame f).responses = s.responses := rfl

/-! ### withResult -/

@[simp] theorem withResult_params (s : State) (r : Result) : (s.withResult r).params = s.params := rfl
@[simp] theorem withResult_frame (s : State) (r : Result) : (s.withResult r).frame = s.frame := rfl
@[simp] theorem withResult_result (s : State) (r : Result) : (s.withResult r).result = r := rfl
@[simp] theorem withResult_inputs (s : State) (r : Result) : (s.withResult r).inputs = s.inputs := rfl
@[simp] theorem withResult_responses (s : State) (r : Result) : (s.withResult r).responses = s.responses := rfl

/-! ### withInputs -/

@[simp] theorem withInputs_params (s : State) (l : List HostAction) : (s.withInputs l).params = s.params := rfl
@[simp] theorem withInputs_frame (s : State) (l : List HostAction) : (s.withInputs l).frame = s.frame := rfl
@[simp] theorem withInputs_result (s : State) (l : List HostAction) : (s.withInputs l).result = s.result := rfl
@[simp] theorem withInputs_inputs (s : State) (l : List HostAction) : (s.withInputs l).inputs = l := rfl
@[simp] theorem withInputs_responses (s : State) (l : List HostAction) :
    (s.withInputs l).responses = s.responses := rfl

/-! ### respond -/

@[simp] theorem respond_params (s : State) (w : Word) : (s.respond w).params = s.params := rfl
@[simp] theorem respond_frame (s : State) (w : Word) : (s.respond w).frame = s.frame := rfl
@[simp] theorem respond_result (s : State) (w : Word) : (s.respond w).result = s.result := rfl
@[simp] theorem respond_inputs (s : State) (w : Word) : (s.respond w).inputs = s.inputs := rfl
@[simp] theorem respond_responses (s : State) (w : Word) : (s.respond w).responses = s.responses ++ [w] := rfl

/-! ### clearResult, append, clearBlock, markInvalid -/

@[simp] theorem clearResult_params (s : State) : s.clearResult.params = s.params := rfl
@[simp] theorem clearResult_frame (s : State) : s.clearResult.frame = s.frame := rfl
@[simp] theorem clearResult_result (s : State) : s.clearResult.result = Result.clear := rfl
@[simp] theorem clearResult_inputs (s : State) : s.clearResult.inputs = s.inputs := rfl
@[simp] theorem clearResult_responses (s : State) : s.clearResult.responses = s.responses := rfl

@[simp] theorem append_params (s : State) (b : Bit) : (s.append b).params = s.params := rfl
@[simp] theorem append_frame (s : State) (b : Bit) : (s.append b).frame = s.frame.append s.params.nmax b := rfl
@[simp] theorem append_result (s : State) (b : Bit) : (s.append b).result = s.result := rfl
@[simp] theorem append_inputs (s : State) (b : Bit) : (s.append b).inputs = s.inputs := rfl
@[simp] theorem append_responses (s : State) (b : Bit) : (s.append b).responses = s.responses := rfl

@[simp] theorem clearBlock_params (s : State) : s.clearBlock.params = s.params := rfl
@[simp] theorem clearBlock_frame (s : State) : s.clearBlock.frame = Frame.empty := rfl
@[simp] theorem clearBlock_result (s : State) : s.clearBlock.result = Result.clear := rfl
@[simp] theorem clearBlock_inputs (s : State) : s.clearBlock.inputs = s.inputs := rfl
@[simp] theorem clearBlock_responses (s : State) : s.clearBlock.responses = s.responses := rfl

@[simp] theorem markInvalid_params (s : State) : s.markInvalid.params = s.params := rfl
@[simp] theorem markInvalid_fb (s : State) : s.markInvalid.frame.fb = s.frame.fb := rfl
@[simp] theorem markInvalid_inv (s : State) : s.markInvalid.frame.inv = true := rfl
@[simp] theorem markInvalid_ovf (s : State) : s.markInvalid.frame.ovf = s.frame.ovf := rfl
@[simp] theorem markInvalid_result (s : State) : s.markInvalid.result = s.result := rfl
@[simp] theorem markInvalid_inputs (s : State) : s.markInvalid.inputs = s.inputs := rfl
@[simp] theorem markInvalid_responses (s : State) : s.markInvalid.responses = s.responses := rfl

end Sys2Proof.Machine
end

