-- ==== Sys2Proof/Laws/Ops.lean ====
section
/-! SUPPORT. One lemma, or a few, for each shared operation: everything it can do, so that proofs cite it and do not
unfold it. -/

namespace Sys2Proof.Machine

/-! ### Answers -/

theorem ok_eq (s : State) (d : BitVec 25) : s.ok d = .next (s.respond (okWord d)) := rfl

theorem okData_eq (s : State) (d : BitVec 24) : s.okData d = .next (s.respond (okWord (d.setWidth 25))) := rfl

theorem reject_eq (s : State) (c : CmdError) : s.reject c = .next (s.respond (rejectWord c)) := rfl

theorem answerLen_eq (s : State) : s.answerLen = s.okData (lenView s.frame) := rfl

/-- The word of an executed command is its 25 bits of data. -/
theorem okWord_toNat (d : BitVec 25) : (okWord d).toNat = d.toNat := by
  have := d.isLt
  simp only [okWord, BitVec.toNat_setWidth]
  omega

/-- Widening a 24-bit view to a response word in one go. -/
theorem okWord_setWidth (d : BitVec 24) : okWord (d.setWidth 25) = d.setWidth 32 := by
  apply BitVec.eq_of_toNat_eq
  have := d.isLt
  simp only [okWord, BitVec.toNat_setWidth]
  omega

/-- The three rejected responses (30_encoding.md R56). -/
theorem rejectWord_eq (c : CmdError) :
    rejectWord c = match c with
      | .illegal => 0x81000000#32
      | .reserved => 0x82000000#32
      | .range => 0x83000000#32 := by
  cases c <;> decide

/-! ### Positions and bits -/

@[simp] theorem mem_positions {M i : Nat} : i ∈ positions M ↔ 1 ≤ i ∧ i ≤ M := by
  simp only [positions, List.mem_range'_1]
  omega

@[simp] theorem bitAt_zero (bits : List Bit) : bitAt bits 0 = false := rfl

@[simp] theorem bitAt_succ (bits : List Bit) (k : Nat) : bitAt bits (k + 1) = bits.getD k false := rfl

/-- Past the end every bit reads 0. -/
theorem bitAt_of_length_lt {bits : List Bit} {i : Nat} (h : bits.length < i) : bitAt bits i = false := by
  cases i with
  | zero => rfl
  | succ k => simp [List.getD, List.getElem?_eq_none (Nat.le_of_lt_succ h)]

/-- Inside the frame position i is the element at index i − 1. -/
theorem bitAt_eq_getElem {bits : List Bit} {i : Nat} (h1 : 1 ≤ i) (h2 : i ≤ bits.length) :
    bitAt bits i = bits[i - 1]'(by omega) := by
  obtain ⟨k, rfl⟩ : ∃ k, i = k + 1 := ⟨i - 1, by omega⟩
  simp [List.getD, List.getElem?_eq_getElem (show k < bits.length by omega)]

theorem xorAll_foldl (bits : List Bit) (a : Bit) : bits.foldl Bool.xor a = (a ^^ xorAll bits) := by
  induction bits generalizing a with
  | nil => simp [xorAll]
  | cons b bs ih =>
    rw [List.foldl_cons, ih]
    simp only [xorAll, List.foldl_cons]
    rw [ih (Bool.xor false b)]
    cases a <;> cases b <;> simp [xorAll]

@[simp] theorem xorAll_nil : xorAll [] = false := rfl

@[simp] theorem xorAll_cons (b : Bit) (bs : List Bit) : xorAll (b :: bs) = (b ^^ xorAll bs) := by
  rw [xorAll, List.foldl_cons, xorAll_foldl, Bool.false_xor]

@[simp] theorem xorAll_append (as bs : List Bit) : xorAll (as ++ bs) = (xorAll as ^^ xorAll bs) := by
  induction as with
  | nil => simp
  | cons a as ih => simp [ih]

@[simp] theorem flipBit_length (bits : List Bit) (e : Nat) : (flipBit bits e).length = bits.length := by
  cases e <;> simp [flipBit]

/-- Flipping position e changes position e and nothing else. -/
theorem bitAt_flipBit {bits : List Bit} {e : Nat} (h1 : 1 ≤ e) (h2 : e ≤ bits.length) (i : Nat) :
    bitAt (flipBit bits e) i = if i = e then !bitAt bits e else bitAt bits i := by
  obtain ⟨k, rfl⟩ : ∃ k, e = k + 1 := ⟨e - 1, by omega⟩
  cases i with
  | zero => simp
  | succ j =>
    have hk : k < bits.length := by omega
    by_cases hj : j = k
    · subst hj
      simp [flipBit, List.getD, hk]
    · have hj' : k ≠ j := fun h => hj h.symm
      simp [flipBit, List.getD, hj, hj']

/-! ### Append -/

/-- A bit is stored while there is room, and is dropped with OVF set otherwise (40_frame_load.md R68). -/
theorem frame_append_cases (f : Frame) (nmax : Nat) (b : Bit) :
    (f.len < nmax ∧ f.append nmax b = { f with fb := f.fb ++ [b] }) ∨
    (nmax ≤ f.len ∧ f.append nmax b = { f with ovf := true }) := by
  by_cases h : f.len < nmax
  · exact .inl ⟨h, by simp [Frame.append, h]⟩
  · exact .inr ⟨Nat.le_of_not_lt h, by simp [Frame.append, h]⟩

@[simp] theorem appendAll_nil (s : State) : s.appendAll [] = s := rfl

@[simp] theorem appendAll_cons (s : State) (b : Bit) (bs : List Bit) :
    s.appendAll (b :: bs) = (s.append b).appendAll bs := rfl

@[simp] theorem appendAll_params (bs : List Bit) (s : State) : (s.appendAll bs).params = s.params := by
  induction bs generalizing s with
  | nil => rfl
  | cons b bs ih => simp [ih]

@[simp] theorem appendAll_result (bs : List Bit) (s : State) : (s.appendAll bs).result = s.result := by
  induction bs generalizing s with
  | nil => rfl
  | cons b bs ih => simp [ih]

@[simp] theorem appendAll_inputs (bs : List Bit) (s : State) : (s.appendAll bs).inputs = s.inputs := by
  induction bs generalizing s with
  | nil => rfl
  | cons b bs ih => simp [ih]

@[simp] theorem appendAll_responses (bs : List Bit) (s : State) : (s.appendAll bs).responses = s.responses := by
  induction bs generalizing s with
  | nil => rfl
  | cons b bs ih => simp [ih]

/-- A sequence of appends stores the bits that fit, in order, and sets OVF exactly when some did not fit. -/
theorem appendAll_frame (bs : List Bit) (s : State) :
    (s.appendAll bs).frame =
      { fb := s.frame.fb ++ bs.take (s.params.nmax - s.frame.len)
        inv := s.frame.inv
        ovf := s.frame.ovf || decide (bs ≠ [] ∧ s.params.nmax < s.frame.len + bs.length) } := by
  induction bs generalizing s with
  | nil => simp
  | cons b bs ih =>
    have hap : (s.append b).frame = s.frame.append s.params.nmax b := rfl
    rw [appendAll_cons, ih, append_params, hap]
    rcases frame_append_cases s.frame s.params.nmax b with ⟨hl, he⟩ | ⟨hl, he⟩
    · obtain ⟨n, hn⟩ : ∃ n, s.params.nmax - s.frame.len = n + 1 := ⟨s.params.nmax - s.frame.len - 1, by omega⟩
      have hlen : Frame.len { s.frame with fb := s.frame.fb ++ [b] } = s.frame.len + 1 := by simp [Frame.len]
      have hn' : s.params.nmax - (s.frame.len + 1) = n := by omega
      rw [he, hlen, hn, hn', List.take_succ_cons]
      simp only [List.append_assoc, List.singleton_append, List.length_cons, Frame.mk.injEq, true_and]
      congr 1
      cases bs <;> simp <;> omega
    · have hlen : Frame.len { s.frame with ovf := true } = s.frame.len := rfl
      have hz : s.params.nmax - s.frame.len = 0 := by omega
      rw [he, hlen, hz]
      simp
      omega

/-! ### Operands -/

/-- A symbol stands for a bit only if it is one of the two characters (40_frame_load.md R69). -/
theorem symbolBit_eq_some {c : BitVec 8} {b : Bit} :
    symbolBit c = some b ↔ (c = ch0 ∧ b = false) ∨ (c = ch1 ∧ b = true) := by
  have hne : ch1 ≠ ch0 := by decide
  unfold symbolBit
  split
  · rename_i h
    subst h
    cases b <;> simp [hne.symm]
  · rename_i h
    split
    · rename_i h'
      subst h'
      cases b <;> simp [h]
    · rename_i h'
      simp [h, h']

theorem symbolBit_eq_none {c : BitVec 8} : symbolBit c = none ↔ c ≠ ch0 ∧ c ≠ ch1 := by
  unfold symbolBit
  split
  · simp_all
  · split <;> simp_all

@[simp] theorem pushBits_length (n : BitVec 5) (v : BitVec 16) : (pushBits n v).length = n.toNat := by
  simp [pushBits]

/-- The indices from 11 on name no register (10_state.md R32). -/
theorem registerOf_eq_none {r : Pos} : registerOf r = none ↔ 10 < r.toNat := by
  unfold registerOf
  split <;> simp_all
  omega

theorem frameBit_eq_some {f : Frame} {p : Pos} (h1 : 1 ≤ p.toNat) (h2 : p.toNat ≤ f.len) :
    frameBit f p = some (bitAt f.fb p.toNat) := by
  simp [frameBit, h1, h2]

theorem frameBit_eq_none {f : Frame} {p : Pos} : frameBit f p = none ↔ p.toNat = 0 ∨ f.len < p.toNat := by
  simp only [frameBit, ite_eq_right_iff, reduceCtorEq, imp_false]
  omega

theorem payloadBit_eq_none {r : Result} {k : Pos} : payloadBit r k = none ↔ r.pb.length ≤ k.toNat := by
  simp [payloadBit]

theorem reportEntry_eq_none {r : Result} {k : Pos} : reportEntry r k = none ↔ r.er.length ≤ k.toNat := by
  simp [reportEntry]

/-! ### Decoding -/

/-- A byte names an opcode exactly when it is that opcode's byte (30_encoding.md R51). -/
theorem opcodeOf_eq_some {op : BitVec 8} {o : Opcode} : opcodeOf op = some o ↔ op = o.byte := by
  constructor
  · intro h
    have := List.find?_some h
    simpa using (beq_iff_eq.mp this).symm
  · rintro rfl
    cases o <;> decide

theorem opField_append (op : BitVec 8) (arg : BitVec 24) : opField (op ++ arg : Word) = op :=
  BitVec.extractLsb'_append_eq_left

theorem argField_append (op : BitVec 8) (arg : BitVec 24) : argField (op ++ arg : Word) = arg :=
  BitVec.extractLsb'_append_eq_right

end Sys2Proof.Machine
end

