-- ==== Sys2Proof/Laws/PerInstr.lean ====
section
/-! SUPPORT. Statements made of every instruction as syntax, one lemma per constructor. -/

namespace Sys2Proof.Laws

/-- The family RowMatch: the command word of an instruction lies in its own row of the table, `w AND mask = match`
(30_encoding.md R54). -/
def RowMatch.Statement (i : Instr) : Prop := encode i &&& i.opcode.maskWord = i.opcode.matchWord

/-- Masking a word that is an opcode over an operand field masks the two parts. -/
theorem row_of_arg (op : BitVec 8) (arg res : BitVec 24) (h : arg &&& res = 0) :
    ((op ++ arg : Word) &&& (0xFF#8 ++ res)) = op ++ 0#24 := by
  rw [BitVec.and_append, h]
  congr 1
  exact BitVec.and_allOnes

theorem RowMatch.nop : RowMatch.Statement .nop := row_of_arg _ _ _ (by decide)

theorem RowMatch.clr : RowMatch.Statement .clr := row_of_arg _ _ _ (by decide)

theorem RowMatch.pushb (b : Bit) : RowMatch.Statement (.pushb b) := row_of_arg _ _ _ (by cases b <;> decide)

theorem RowMatch.pushc (c : BitVec 8) : RowMatch.Statement (.pushc c) :=
  row_of_arg _ _ _ (by
    show (0#16 ++ c : BitVec 24) &&& (0xFFFF#16 ++ 0x00#8) = 0#16 ++ 0#8
    rw [BitVec.and_append]; simp)

theorem RowMatch.pushn (n : BitVec 5) (v : BitVec 16) : RowMatch.Statement (.pushn n v) :=
  row_of_arg _ _ _ (by
    show (0#3 ++ n ++ v : BitVec 24) &&& (0x7#3 ++ 0#5 ++ 0#16) = 0#3 ++ 0#5 ++ 0#16
    rw [BitVec.and_append, BitVec.and_append]; simp)

theorem RowMatch.dech (m : Bit) : RowMatch.Statement (.dech m) := row_of_arg _ _ _ (by cases m <;> decide)

theorem RowMatch.decf : RowMatch.Statement .decf := row_of_arg _ _ _ (by decide)

theorem RowMatch.rds (r : Pos) : RowMatch.Statement (.rds r) := row_of_arg _ _ _ BitVec.and_zero

theorem RowMatch.rdf (p : Pos) : RowMatch.Statement (.rdf p) := row_of_arg _ _ _ BitVec.and_zero

theorem RowMatch.rdp (k : Pos) : RowMatch.Statement (.rdp k) := row_of_arg _ _ _ BitVec.and_zero

theorem RowMatch.rde (k : Pos) : RowMatch.Statement (.rde k) := row_of_arg _ _ _ BitVec.and_zero

end Sys2Proof.Laws
end

