-- ==== Sys2Proof/Laws/Pins.lean ====
section
/-! SUPPORT. What an edge of the pin level does for the command in the block. -/

namespace Sys2Proof.Machine

@[simp] theorem work_zero (p : PinState) (w : Word) :
    p.work w 0 = { p with core := commandEffect w p.core, phase := .answering w (commandResponse w p.core) } := rfl

@[simp] theorem work_succ (p : PinState) (w : Word) (k : Nat) : p.work w (k + 1) = { p with phase := .busy w k } := rfl

@[simp] theorem work_accepted (p : PinState) (w : Word) (k : Nat) : (p.work w k).accepted = p.accepted := by
  cases k <;> rfl

/-- While a command is in the block, `cmd_ready` is low, and `rsp_valid` is high exactly from the edge that presents the
response. -/
theorem work_out (p : PinState) (w : Word) (k : Nat) :
    ((p.work w k).out false).cmdReady = false ∧ ((p.work w k).out false).rspValid = (k == 0) := by
  cases k <;> exact ⟨rfl, rfl⟩

end Sys2Proof.Machine
end

