-- ==== Sys2Proof/Laws/Step.lean ====
section
/-! SUPPORT. What a meaning and a step can do, said once. -/

namespace Sys2Proof.Machine

/-- Every meaning ends by delivering one response, on a state with the same parameters and the same later actions of
the host. -/
theorem exec_respond (i : Instr) (s : State) :
    ∃ (u : State) (r : Word), exec i s = .next (u.respond r) ∧ u.params = s.params ∧ u.inputs = s.inputs ∧
      u.responses = s.responses := by
  cases i with
  | nop => exact ⟨s, _, rfl, rfl, rfl, rfl⟩
  | clr => exact ⟨s.clearBlock, _, rfl, rfl, rfl, rfl⟩
  | pushb b => exact ⟨s.clearResult.append b, _, rfl, rfl, rfl, rfl⟩
  | pushc c =>
    simp only [exec, execPushc]
    split
    · exact ⟨_, _, rfl, rfl, rfl, rfl⟩
    · exact ⟨_, _, rfl, rfl, rfl, rfl⟩
  | pushn n v =>
    simp only [exec, execPushn]
    split
    · exact ⟨_, _, rfl, appendAll_params _ _, appendAll_inputs _ _, appendAll_responses _ _⟩
    · exact ⟨s, _, rfl, rfl, rfl, rfl⟩
  | dech m => exact ⟨s.withResult _, _, rfl, rfl, rfl, rfl⟩
  | decf => exact ⟨s.withResult _, _, rfl, rfl, rfl, rfl⟩
  | rds r => simp only [exec, execRds]; split <;> exact ⟨s, _, rfl, rfl, rfl, rfl⟩
  | rdf p => simp only [exec, execRdf]; split <;> exact ⟨s, _, rfl, rfl, rfl, rfl⟩
  | rdp k => simp only [exec, execRdp]; split <;> exact ⟨s, _, rfl, rfl, rfl, rfl⟩
  | rde k => simp only [exec, execRde]; split <;> exact ⟨s, _, rfl, rfl, rfl, rfl⟩

/-- Everything every meaning has in common: it answers a next state, the parameters and the host's later actions are
left alone, and one response is delivered. -/
theorem exec_answers (i : Instr) (s : State) :
    ∃ t r, exec i s = .next t ∧ t.params = s.params ∧ t.inputs = s.inputs ∧ t.responses = s.responses ++ [r] := by
  obtain ⟨u, r, h, hp, hi, hr⟩ := exec_respond i s
  exact ⟨u.respond r, r, h, hp, hi, by rw [respond_responses, hr]⟩

/-- What a command may look at and write: its effect on the block and its response come from the block's state alone,
whatever the host does later and whatever was answered before. -/
theorem exec_of_block (i : Instr) (s : State) :
    ∃ (f : Frame) (r : Result) (x : Word), ∀ (l : List HostAction) (rs : List Word),
      exec i { s with inputs := l, responses := rs } =
        .next { params := s.params, frame := f, result := r, inputs := l, responses := rs ++ [x] } := by
  cases i with
  | nop => exact ⟨s.frame, s.result, _, fun _ _ => rfl⟩
  | clr => exact ⟨Frame.empty, Result.clear, _, fun _ _ => rfl⟩
  | pushb b =>
    let u := s.clearResult.append b
    exact ⟨u.frame, u.result, okWord ((lenView u.frame).setWidth 25), fun _ _ => rfl⟩
  | pushc c =>
    simp only [exec, execPushc]
    split
    · rename_i b _
      let u := s.clearResult.append b
      exact ⟨u.frame, u.result, okWord ((lenView u.frame).setWidth 25), fun _ _ => rfl⟩
    · let u := s.clearResult.markInvalid
      exact ⟨u.frame, u.result, okWord ((lenView u.frame).setWidth 25), fun _ _ => rfl⟩
  | pushn n v =>
    let u := s.clearResult.appendAll (pushBits n v)
    simp only [exec, execPushn]
    split
    · exact ⟨u.frame, u.result, okWord ((lenView u.frame).setWidth 25), fun l rs => by
        simp [State.answerLen, State.okData, State.ok, State.respond, appendAll_frame, u]⟩
    · exact ⟨s.frame, s.result, _, fun _ _ => rfl⟩
  | dech m =>
    let r := hammingResult s.frame m
    exact ⟨s.frame, r, okWord ((statusView r).setWidth 25), fun _ _ => rfl⟩
  | decf =>
    let r := fletcherResult s.frame
    exact ⟨s.frame, r, okWord ((statusView r).setWidth 25), fun _ _ => rfl⟩
  | rds r =>
    simp only [exec, execRds]
    split
    · rename_i reg _
      exact ⟨s.frame, s.result, okWord ((s.view reg).setWidth 25), fun _ _ => by cases reg <;> rfl⟩
    · exact ⟨s.frame, s.result, _, fun _ _ => rfl⟩
  | rdf p =>
    cases h : frameBit s.frame p <;>
      exact ⟨s.frame, s.result, _, fun _ _ => by simp only [exec, execRdf, h]; rfl⟩
  | rdp k =>
    cases h : payloadBit s.result k <;>
      exact ⟨s.frame, s.result, _, fun _ _ => by simp only [exec, execRdp, h]; rfl⟩
  | rde k =>
    cases h : reportEntry s.result k <;>
      exact ⟨s.frame, s.result, _, fun _ _ => by simp only [exec, execRde, h]; rfl⟩

theorem step_of_nil {s : State} (h : s.inputs = []) : step s = .next s := by
  simp [step, takeAction, h]

theorem step_of_cons {s : State} {a : HostAction} {rest : List HostAction} (h : s.inputs = a :: rest) :
    step s = perform a (s.withInputs rest) := by
  simp [step, takeAction, h]

theorem runCommand_of_ok {w : Word} {i : Instr} (h : decode w = .ok i) (s : State) : runCommand w s = exec i s := by
  simp [runCommand, h]

theorem runCommand_of_error {w : Word} {c : CmdError} (h : decode w = .error c) (s : State) :
    runCommand w s = s.reject c := by
  simp [runCommand, h]

/-- Everything every word has in common, accepted or rejected: a next state, the parameters and the host's later actions
left alone, and one response. -/
theorem runCommand_answers (w : Word) (s : State) :
    ∃ t r, runCommand w s = .next t ∧ t.params = s.params ∧ t.inputs = s.inputs ∧ t.responses = s.responses ++ [r] := by
  cases h : decode w with
  | ok i => rw [runCommand_of_ok h]; exact exec_answers i s
  | error c => rw [runCommand_of_error h]; exact ⟨s.respond (rejectWord c), _, rfl, rfl, rfl, rfl⟩

@[simp] theorem runWords_nil (s : State) : runWords [] s = .next s := rfl

/-- A run of words takes its first word's step and goes on from the state that leaves. -/
theorem runWords_cons {w : Word} {s t : State} (h : runCommand w s = .next t) (ws : List Word) :
    runWords (w :: ws) s = runWords ws t := by
  simp [runWords, h]

end Sys2Proof.Machine
end

