-- ==== Sys2Proof/Tests/Slice0.lean ====
section
/-! SUPPORT. The model's own tests. Expected values are those of spec/95_test_vectors.md and 30_encoding.md section 7;
each theorem names its vector. Then, for every statement with hypotheses, a witness that meets them. -/

namespace Sys2Proof.Tests

open Sys2Proof Sys2Proof.Machine

/-! ### Helpers -/

/-- The bits of a frame written as a number of `n` bits, first position most significant. -/
def bits (n v : Nat) : List Bit := fieldBits n v

/-- A block of capacity 16 + k holding a frame, no result held. -/
def block (k : Fin 16777200) (f : Frame) : State :=
  { params := { spare := k }, frame := f, result := Result.clear, inputs := [], responses := [] }

/-- A block of capacity 64 holding a clean frame of `n` bits. -/
def held (n v : Nat) : State := block 48 (cleanFrame (bits n v))

/-- A block of capacity 16 whose buffer is full. -/
def full : State := block 0 (cleanFrame (bits 16 0))

/-- The state an answer gives; the state itself if it gives none. -/
def stateOf (o : Answer) (s : State) : State :=
  match o with
  | .next t => t
  | .fault f => nomatch f
  | .refused _ => s

/-- The state a meaning leaves. -/
def after (i : Instr) (s : State) : State := stateOf (exec i s) s

/-- The last response, as a number. -/
def answer (s : State) : Nat := (s.responses.getLastD 0).toNat

/-- The state after vector H29: a double error, with its candidates. -/
def doubleError : State := after (.dech true) (held 8 0x42)

/-! ### WellFormed refuses each ill-formed form -/

theorem test_wellFormed_count_zero : (Instr.pushn 0 0).wellFormed = false := by decide
theorem test_wellFormed_count_17 : (Instr.pushn 17 0).wellFormed = false := by decide
theorem test_wellFormed_value_too_wide : (Instr.pushn 3 8).wellFormed = false := by decide
theorem test_wellFormed_widest : (Instr.pushn 16 0xFFFF).wellFormed = true := by decide

/-! ### Decoding: one word of every row, from 30_encoding.md section 7 and 95_test_vectors.md, and the rejections -/

theorem test_decode_words :
    decode 0b00000000000000000000000000000000#32 = .ok .nop ∧
    decode 0b00000001000000000000000000000000#32 = .ok .clr ∧
    decode 0b00000010000000000000000000000001#32 = .ok (.pushb true) ∧
    decode 0b00000011000000000000000000110000#32 = .ok (.pushc 0x30) ∧
    decode 0b00000100000000110000000000000101#32 = .ok (.pushn 3 5) ∧
    decode 0b00010000000000000000000000000001#32 = .ok (.dech true) ∧
    decode 0b00010001000000000000000000000000#32 = .ok .decf ∧
    decode 0b00100000000000000000000000000011#32 = .ok (.rds 3) ∧
    decode 0b00100001000000000000000000000001#32 = .ok (.rdf 1) ∧
    decode 0b00100010111111111111111111111111#32 = .ok (.rdp 0xFFFFFF) ∧
    decode 0b00100011000000000000000000000010#32 = .ok (.rde 2) := by decide

/-- Vectors E1 to E12, E14, E15. -/
theorem test_decode_rejections :
    [0x05000000#32, 0x12000000#32, 0x24000000#32, 0xFFFFFFFF#32].map decode = List.replicate 4 (.error .illegal) ∧
    [0x00000001#32, 0x01000001#32, 0x02000002#32, 0x03000100#32, 0x04000000#32, 0x04110000#32, 0x04030009#32,
      0x04200001#32, 0x10000002#32, 0x11000001#32].map decode = List.replicate 10 (.error .reserved) := by decide

theorem test_encode_words :
    encode (.pushn 8 0x66) = 0x04080066#32 ∧ encode (.dech false) = 0x10000000#32 ∧
    encode (.pushc 0x41) = 0x03000041#32 ∧ encode (.rde 2) = 0x23000002#32 := by decide

/-! ### The commands -/

/-- L12. -/
theorem test_nop_keeps_the_result : (after .nop doubleError).result = doubleError.result := by decide

/-- L13. -/
theorem test_clr_clears_everything :
    (after .clr doubleError).frame = Frame.empty ∧ (after .clr doubleError).result = Result.clear ∧
    answer (after .clr doubleError) = 0 := by decide

/-- L1. -/
theorem test_pushb_first_bit :
    (after (.pushb true) (held 0 0)).frame.fb = [true] ∧ answer (after (.pushb true) (held 0 0)) = 1 := by decide

/-- L8, with NMAX = 16. -/
theorem test_pushb_at_full_buffer :
    (after (.pushb true) full).frame = { full.frame with ovf := true } ∧ answer (after (.pushb true) full) = 16 := by
  decide

/-- L5. -/
theorem test_pushc_bad_symbol :
    (after (.pushc 0x32) (held 1 1)).frame = { fb := [true], inv := true, ovf := false } ∧
    answer (after (.pushc 0x32) (held 1 1)) = 1 := by decide

/-- L10, with NMAX = 16. -/
theorem test_pushc_bad_symbol_at_full_buffer :
    (after (.pushc 0x41) full).frame = { full.frame with inv := true } := by decide

/-- L2. -/
theorem test_pushn_most_significant_first :
    (after (.pushn 8 0x66) (held 0 0)).frame.fb = [false, true, true, false, false, true, true, false] := by decide

/-- L9, with NMAX = 16. -/
theorem test_pushn_overflows_in_the_middle :
    (after (.pushn 8 0xE0) (block 0 (cleanFrame (bits 13 0)))).frame =
      { fb := bits 13 0 ++ [true, true, true], inv := false, ovf := true } := by decide

/-- H29. -/
theorem test_dech_double_error :
    doubleError.result =
      { Result.clear with
        st := .hDbl, mode := true, syn := 5, pb := [false, false, false, true]
        er := [⟨false, 1⟩, ⟨false, 4⟩, ⟨true, 2⟩, ⟨true, 7⟩, ⟨false, 3⟩, ⟨false, 6⟩, ⟨false, 5⟩, ⟨false, 8⟩] } ∧
    answer doubleError = 0x24 := by decide

/-- H47: a correction at position 11 of 15. -/
theorem test_dech_corrects_position_11 :
    let t := after (.dech true) (held 16 0b0010011100011001)
    t.result.st = .hCorr ∧ t.result.cpos = 11 ∧ t.result.er = [⟨false, 11⟩] ∧ t.result.gpb = true ∧
    t.result.pb = bits 11 0b10110011100 := by decide

/-- F17: both accumulators wrap modulo 255. -/
theorem test_decf_wraps :
    let t := after .decf (held 32 0x80808101)
    t.result.st = .fOk ∧ t.result.s1 = 1 ∧ t.result.s2 = 129 ∧ t.result.pb = bits 16 0x8080 ∧ answer t = 0x18 := by
  decide

/-- F13: the padding takes part in the sums and is not returned. -/
theorem test_decf_padding : (after .decf (held 19 0b1011010000010100000)).result.pb = bits 3 0b101 := by decide

/-- Q4, Q12. -/
theorem test_rds_status_and_range :
    answer (after (.rds 3) doubleError) = 0x24 ∧ answer (after (.rds 11) doubleError) = 0x83000000 := by decide

/-- F26: CALC after a mismatch. -/
theorem test_rds_calc : answer (after (.rds 9) (after .decf (held 24 0x494848))) = 0x4949 := by decide

/-- Q13, Q14, Q16. -/
theorem test_rdf_positions :
    [0, 2, 9].map (fun p => answer (after (.rdf p) doubleError)) = [0x83000000, 1, 0x83000000] := by decide

/-- Q17, Q18. -/
theorem test_rdp_indices :
    [3, 4].map (fun k => answer (after (.rdp k) doubleError)) = [1, 0x83000000] := by decide

/-- Q19, Q20, Q21. -/
theorem test_rde_indices :
    [2, 7, 8].map (fun k => answer (after (.rde k) doubleError)) = [0x01000002, 8, 0x83000000] := by decide

/-- The first command after reset, whatever NMAX is: L2 from the reset state. -/
theorem test_first_command_after_reset :
    answer (stateOf (step (State.reset.withFetchWord 32 0x04080066)) State.reset) = 8 := by decide

/-- Assembler notation (30_encoding.md section 7). -/
theorem test_assembly : assembly (.pushn 3 5) = "PUSHN 3, 5" ∧ assembly .clr = "CLR" := by decide

/-! ### Witnesses: the hypotheses of the statements can be met -/

/-- A state whose host presents one word, then another. -/
def presenting (w : Word) : State := { held 8 0x66 with inputs := [.command w, .command 0x00000000] }

theorem witness_DecodeOfEncodeIsTheInstruction :
    (Instr.pushn 16 0xFFFF).wellFormed = true ∧ (Instr.pushn 1 1).wellFormed = true := by decide

theorem witness_AcceptedWordIsItsInstructionsEncoding : decode 0x0410FFFF#32 = .ok (.pushn 16 0xFFFF) := by decide

/-- An illegal word; an accepted meaning. -/
theorem witness_CommandWordOutcomes :
    (presenting 0xFFFFFFFF).inputs = .command 0xFFFFFFFF :: [.command 0x00000000] ∧ IllegalWord 0xFFFFFFFF ∧
    decode 0x10000000#32 = .ok (.dech false) := by decide

/-- Reserved words at the limits of their fields. -/
theorem witness_CommandWordOutcomes_reserved :
    [0x00000001#32, 0x02000002#32, 0x03000100#32, 0x04000000#32, 0x04110000#32, 0x04030008#32, 0x04210001#32,
      0x11000001#32].all (fun w => decide (¬ IllegalWord w ∧ ReservedWord w)) = true := by decide

/-- Indices just out of range. -/
theorem witness_CommandWordOutcomes_range :
    [0x2000000B#32, 0x21000000#32, 0x21000009#32, 0x22000004#32, 0x23000008#32].all (fun w =>
      decide (¬ IllegalWord w ∧ ¬ ReservedWord w ∧ OutOfRangeWord w doubleError)) = true := by decide

/-- Accepted words next to the limits. -/
theorem witness_CommandWordOutcomes_accepted :
    [0x00000000#32, 0x02000001#32, 0x030000FF#32, 0x04010001#32, 0x0410FFFF#32, 0x2000000A#32, 0x21000008#32,
      0x22000003#32, 0x23000007#32].all (fun w =>
      decide (¬ IllegalWord w ∧ ¬ ReservedWord w ∧ ¬ OutOfRangeWord w doubleError)) = true := by decide

theorem witness_StepRunsTheDecodedInstruction :
    (presenting 0x10000001).inputs = .command 0x10000001 :: [.command 0x00000000] ∧
    decode 0x10000001#32 = .ok (.dech true) ∧
    { doubleError with inputs := [HostAction.idle] }.inputs = .idle :: [] ∧ doubleError.inputs = [] := by decide

theorem witness_ResetActionsGiveTheResetState :
    { doubleError with inputs := [HostAction.reset] }.inputs = .reset :: [] ∧
    { doubleError with inputs := [HostAction.resetDuring 0x10000001] }.inputs = .resetDuring 0x10000001 :: [] := by
  decide

theorem witness_EveryStepAnswers :
    (presenting 5).inputs = .command 5 :: [.command 0x00000000] ∧
    ∀ (w : Word) (rest : List HostAction), doubleError.inputs ≠ .command w :: rest :=
  ⟨by decide, fun _ _ => nofun⟩

theorem witness_RunAnswersEveryCommand :
    (presenting 0x10000001).inputs = [0x10000001#32, 0x00000000#32].map HostAction.command ∧
    [0x10000001#32, 0x00000000#32][1]? = some 0x00000000#32 := by decide

theorem witness_ProgramIsFoldedInstructionByInstruction :
    (∀ i ∈ [Instr.dech true, .nop], i.wellFormed = true) ∧
    (presenting 0x10000001).inputs = program [.dech true, .nop] := by decide

theorem witness_NopChangesNothing : wordOp 0x00000001 = 0x00 ∧ wordArg 0x00000001 ≠ 0 := by decide

theorem witness_ClrBeginsANewFrame :
    Instr.pushb true ≠ .clr ∧ exec (.pushb true) full = .next (after (.pushb true) full) ∧
    wordOp 0x01000001 = 0x01 ∧ wordArg 0x01000001 ≠ 0 := ⟨by decide, rfl, by decide, by decide⟩

theorem witness_PushbAppendsOneBit :
    (block 0 (cleanFrame (bits 15 0))).frame.fb.length < (block 0 (cleanFrame (bits 15 0))).params.nmax ∧
    full.params.nmax ≤ full.frame.fb.length ∧ wordOp 0x02000002 = 0x02 ∧ wordArg 0x02000002 / 2 ≠ 0 ∧
    (after (.pushb true) full).frame.ovf = true ∧ (after (.pushb true) full).frame.inv = false ∧
    decodes .decf = true := by decide

theorem witness_PushcValidatesItsSymbol :
    (block 0 (cleanFrame (bits 15 0))).frame.fb.length < (block 0 (cleanFrame (bits 15 0))).params.nmax ∧
    full.params.nmax ≤ full.frame.fb.length ∧
    (after (.pushc 0x32) full).frame.inv = true ∧ decodes .decf = true ∧
    (0x32#8 ≠ 0x30 ∧ 0x32#8 ≠ 0x31) ∧ (0x2F#8 ≠ 0x30 ∧ 0x2F#8 ≠ 0x31) ∧
    wordOp 0x03000100 = 0x03 ∧ wordArg 0x03000100 / 2 ^ 8 ≠ 0 := by decide

theorem witness_PushnAppendsItsBits :
    (1 ≤ (1#5).toNat ∧ (1#5).toNat ≤ 16 ∧ (1#16).toNat < 2 ^ (1#5).toNat) ∧
    (1 ≤ (16#5).toNat ∧ (16#5).toNat ≤ 16 ∧ (0xFFFF#16).toNat < 2 ^ (16#5).toNat) ∧
    ¬ (1 ≤ (0#5).toNat) ∧ ¬ ((17#5).toNat ≤ 16) ∧ ¬ ((8#16).toNat < 2 ^ (3#5).toNat) ∧
    wordOp 0x04030008 = 0x04 ∧ ReservedWord 0x04030008 := by decide

theorem witness_FrameIsLoadedAsReceived : (bits 16 0x6633).length ≤ full.params.nmax := by decide

theorem witness_DamagedLoadIsNeverDecoded :
    decodes .decf = true ∧ (∃ c ∈ [0x30#8, 0x32#8], c ≠ 0x30 ∧ c ≠ 0x31) ∧ full.params.nmax < (bits 17 0).length := by
  decide

theorem witness_FrameBufferIsAppendOnly :
    step (presenting 0x02000001) = .next (stateOf (step (presenting 0x02000001)) full) ∧
    decodes (.dech false) = true ∧ exec (.dech false) full = .next (after (.dech false) full) :=
  ⟨rfl, by decide, rfl⟩

theorem witness_InvIsSticky :
    (presenting 0x03000032).inputs = .command 0x03000032 :: [.command 0x00000000] ∧
    step (presenting 0x03000032) = .next (stateOf (step (presenting 0x03000032)) full) ∧
    ¬ BeginsFrame (.command 0x03000032) ∧ BeginsFrame (.command 0x01000000) ∧ BeginsFrame .reset ∧
    exec (.pushc 0x32) full = .next (after (.pushc 0x32) full) ∧
    (after (.pushc 0x32) full).frame.inv = true ∧ decodes .decf = true :=
  ⟨by decide, rfl, by decide, by decide, trivial, rfl, by decide, by decide⟩

theorem witness_OvfIsStickyAndBitsThatFitAreStored :
    Instr.pushn 2 3 ≠ .clr ∧ exec (.pushn 2 3) full = .next (after (.pushn 2 3) full) ∧
    (presenting 0x00000000).inputs = .command 0x00000000 :: [.command 0x00000000] ∧
    ¬ BeginsFrame (.command 0x00000000) ∧
    (after (.pushb true) full).frame.ovf = true ∧ (after (.pushb true) full).frame.inv = false :=
  ⟨by decide, rfl, by decide, by decide, by decide, by decide⟩

theorem witness_CapacityIsKept :
    Fits full ∧ step { full with inputs := [.command 0x02000001] } =
      .next (stateOf (step { full with inputs := [.command 0x02000001] }) full) := ⟨by decide, rfl⟩

/-- The invariant holds in a state that holds a result, with an action of the host to come. -/
theorem witness_StepKeepsTheInvariant : Invariant { doubleError with inputs := [.command 0x11000000] } := by
  constructor <;> decide

theorem witness_ResultStateIsOfTheCurrentFrame :
    (decodes (.dech true) = true ∧ doubleError.frame = (held 8 0x42).frame ∧
      exec (.dech true) doubleError = .next (after (.dech true) doubleError)) ∧
    (loads (.pushn 1 1) = true ∧ (Instr.pushn 1 1).wellFormed = true) ∧ reads (.rds 4) = true ∧
    decode 0x10000002#32 = .error .reserved ∧ ResultOfFrame doubleError := by
  refine ⟨⟨by decide, by decide, rfl⟩, by decide, by decide, by decide, by decide⟩

/-- Every command answers a next state, so the frame's hypothesis is met by every instruction in every state. -/
theorem witness_CommandFrames (i : Instr) : exec i doubleError = .next (after i doubleError) := by
  obtain ⟨t, _, h, _⟩ := exec_answers i doubleError
  simp [after, stateOf, h]

theorem witness_ParitiesCountOnes :
    (bits 8 0x66).length = (bits 8 0x42).length ∧ Clean (held 8 0x66) ∧
    exec (.dech true) (held 8 0x66) = .next (after (.dech true) (held 8 0x66)) := ⟨by decide, by decide, rfl⟩

/-- M = 2, the smallest, and the rule's own M = 6. -/
theorem witness_SyndromeIsTheSumOfOddGroups : (∀ k : Nat, 2 + 1 ≠ 2 ^ k) ∧ (∀ k : Nat, 6 + 1 ≠ 2 ^ k) := by
  refine ⟨fun k => ?_, fun k => ?_⟩ <;> cases k <;> omega

theorem witness_SyndromeIsTheXorOfOnes : 1 ≤ 7 ∧ 7 ≤ (bits 7 0x33).length ∧ (bits 7 0x33).length < 2 ^ 24 := by decide

/-- The class conditions of a frame, for the witnesses. -/
def classOf (s : State) : Nat × Bit × Nat :=
  (syndrome (s.frame.fb.take (s.frame.fb.length - 1)), globalComputed s.frame.fb, s.frame.fb.length - 1)

/-- H20, and the shortest frame H3. -/
theorem witness_DechNoError :
    Clean (held 8 0x66) ∧ classOf (held 8 0x66) = (0, false, 7) ∧ Clean (held 1 0) ∧
    classOf (held 1 0) = (0, false, 0) := by decide

/-- H28, and the shortest frame H4. -/
theorem witness_DechGlobalParityError :
    Clean (held 8 0x67) ∧ classOf (held 8 0x67) = (0, true, 7) ∧ Clean (held 1 1) ∧
    classOf (held 1 1) = (0, true, 0) := by decide

/-- H23; H27, where the syndrome is M. -/
theorem witness_DechCorrectsOneBit :
    Clean (held 8 0x46) ∧ classOf (held 8 0x46) = (3, true, 7) ∧ Clean (held 8 0x64) ∧
    classOf (held 8 0x64) = (7, true, 7) := by decide

/-- H39; H12, where the syndrome is M + 1. -/
theorem witness_DechSyndromeOutOfRange :
    Clean (held 7 0b0110010) ∧ classOf (held 7 0b0110010) = (7, true, 6) ∧ Clean (held 3 7) ∧
    classOf (held 3 7) = (3, true, 2) := by decide

/-- H29; H40, where the syndrome is above M; H10, the shortest. -/
theorem witness_DechListsCandidatePairs :
    Clean (held 8 0x42) ∧ classOf (held 8 0x42) = (5, false, 7) ∧ Clean (held 7 0b1000010) ∧
    classOf (held 7 0b1000010) = (7, false, 6) ∧ Clean (held 2 3) ∧ classOf (held 2 3) = (1, false, 1) := by decide

/-- H29's code block: three pairs, (1,4), (2,7) and (3,6). -/
theorem witness_CandidatePairsAreExactlyThePairs :
    (2 * 2 < (candidatePairs (bits 7 0b0100001) 5).length ∧
      (candidatePairs (bits 7 0b0100001) 5)[2 * 0]? = some ⟨false, 1⟩ ∧
      (candidatePairs (bits 7 0b0100001) 5)[2 * 2]? = some ⟨false, 3⟩) ∧
    (bits 7 0b0100001).length < 2 ^ 24 ∧ 5 ≠ 0 ∧ 5 < 2 ^ 24 ∧ 1 ≤ 2 ∧ 2 < 7 ∧ 7 ≤ (bits 7 0b0100001).length ∧
    2 ^^^ 7 = 5 := by decide

/-- H43, H44, H42. -/
theorem witness_DechPlainMode :
    Clean (held 7 0x33) ∧ syndrome (bits 7 0x33) = 0 ∧
    Clean (held 7 0x31) ∧ syndrome (bits 7 0x31) = 6 ∧ 6 ≤ (bits 7 0x31).length ∧
    Clean (held 6 0x21) ∧ (bits 6 0x21).length < syndrome (bits 6 0x21) := by decide

theorem witness_ReportSizePerClass :
    Clean (held 8 0x42) ∧ Fits (held 8 0x42) ∧ (after (.dech true) (held 8 0x42)).result.st = .hDbl ∧
    (after (.dech true) (held 8 0x66)).result.st = .hNoErr ∧
    (after (.dech true) (held 8 0x46)).result.st = .hCorr := by decide

theorem witness_PayloadIsTheDataBits :
    ((bits 2 0).length ≤ 2 ∧ (bits 3 0).length = 3 ∧ (bits 7 0).length = 7 ∧ (bits 15 0).length = 15) ∧
    exec (.dech true) (held 8 0x46) = .next (after (.dech true) (held 8 0x46)) ∧ Clean (held 8 0x46) ∧
    ¬ Clean (held 0 0) := ⟨by decide, rfl, by decide, by decide⟩

theorem witness_DecodesArePureAndIdempotent : decodes (.dech true) = true ∧ decodes .decf = true := by decide

theorem witness_DecodeFailuresInPriority :
    (after (.pushc 0x32) full).frame.inv = true ∧
    ((after (.pushb true) full).frame.inv = false ∧ (after (.pushb true) full).frame.ovf = true) ∧
    ((held 0 0).frame.inv = false ∧ (held 0 0).frame.ovf = false ∧ (held 0 0).frame.fb.length = 0) ∧
    ((held 15 0).frame.inv = false ∧ (held 15 0).frame.ovf = false ∧ (held 15 0).frame.fb.length < 16) ∧
    exec (.dech true) full = .next (after (.dech true) full) ∧ exec .decf full = .next (after .decf full) :=
  ⟨by decide, by decide, by decide, by decide, rfl, rfl⟩

/-- H20 flipped at position 3, and at the global parity bit. -/
theorem witness_SingleFlipIsLocatedAndCorrected :
    ValidSecded (bits 8 0x66) ∧ (bits 8 0x66).length < 2 ^ 24 ∧ 1 ≤ 3 ∧ 3 ≤ (bits 8 0x66).length ∧
    (held 8 0x46).frame = cleanFrame (flipBit (bits 8 0x66) 3) ∧
    (held 8 0x67).frame = cleanFrame (flipBit (bits 8 0x66) 8) := by decide

/-- H29; H30, where the second flip is the global parity bit. -/
theorem witness_DoubleFlipIsDetectedWithItsPair :
    ValidSecded (bits 8 0x66) ∧ (bits 8 0x66).length < 2 ^ 24 ∧ 1 ≤ 3 ∧ 3 < 6 ∧ 6 ≤ (bits 8 0x66).length ∧
    (held 8 0x42).frame = cleanFrame (flipBit (flipBit (bits 8 0x66) 3) 6) ∧
    (held 8 0x6F).frame = cleanFrame (flipBit (flipBit (bits 8 0x66) 5) 8) := by decide

/-- H32 (three flips), H34 (four flips that cancel), H39 (three flips, H_OOR). -/
theorem witness_FlipCountDecidesTheClass :
    ValidSecded (bits 8 0x66) ∧ (bits 8 0x66).length < 2 ^ 24 ∧ (bits 8 0x86).length = (bits 8 0x66).length ∧
    (held 8 0x86).frame = cleanFrame (bits 8 0x86) ∧ distance (bits 8 0x66) (bits 8 0x86) = 3 ∧
    distance (bits 8 0x66) (bits 8 0xB4) = 4 ∧ (after (.dech true) (held 8 0xB4)).result.st = .hNoErr ∧
    ValidSecded (bits 7 0b1011010) ∧ distance (bits 7 0b1011010) (bits 7 0b0110010) = 3 ∧
    (after (.dech true) (held 7 0b0110010)).result.st = .hOor := by decide

/-- F3 (no data at all), F5 and F6. -/
theorem witness_DecfVerifiesTheChecksum :
    ((held 16 0).frame.inv = false ∧ (held 16 0).frame.ovf = false ∧ 16 ≤ (held 16 0).frame.fb.length) ∧
    16 ≤ (held 24 0x484848).frame.fb.length ∧ 16 ≤ (held 24 0x494848).frame.fb.length ∧
    wordOp 0x11000001 = 0x11 ∧ wordArg 0x11000001 ≠ 0 := by decide

theorem witness_ReceivedChecksumIsBigEndian : 16 ≤ (bits 16 0x4848).length ∧ 15 < 16 := by decide

theorem witness_DataBytesAreMostSignificantFirst : (dataBytes (bits 3 5))[0]? = some 0xA0 := by decide

theorem witness_AccumulatorsAreExactModulo255 : 255 ≤ 255 ∧ 0 ≤ 255 := by decide

/-- F13. -/
theorem witness_FletcherRoundTrip :
    (held 19 0b1011010000010100000).frame =
      cleanFrame (bits 3 5 ++ fieldBits 16 ((sums (dataBytes (bits 3 5))).s2 * 2 ^ 8 +
        (sums (dataBytes (bits 3 5))).s1)) := by decide

/-- F5 flipped in the data (F6), and in the checksum field (F7). -/
theorem witness_FletcherSingleFlipIsDetected :
    ValidFletcher (bits 24 0x484848) ∧ 1 ≤ 8 ∧ 8 ≤ (bits 24 0x484848).length ∧
    (held 24 0x494848).frame = cleanFrame (flipBit (bits 24 0x484848) 8) ∧
    (held 24 0x484849).frame = cleanFrame (flipBit (bits 24 0x484848) 24) := by decide

/-- F11. -/
theorem witness_FletcherBlindSpots :
    (held 24 0xFFFF00).frame.inv = false ∧ (held 24 0xFFFF00).frame.ovf = false ∧
    16 ≤ (held 24 0xFFFF00).frame.fb.length ∧ exec .decf (held 24 0xFFFF00) = .next (after .decf (held 24 0xFFFF00)) ∧
    receivedChecksum (held 24 0xFFFF00).frame.fb / 2 ^ 8 = 255 := ⟨by decide, by decide, by decide, rfl, by decide⟩

theorem witness_RdsReadsEveryRegister :
    NoneIsClear (held 8 0x42) ∧ (held 8 0x42).result.st = .none ∧ 3 ≤ (3 : Pos).toNat ∧ (10 : Pos).toNat ≤ 10 ∧
    10 < (11 : Pos).toNat ∧ 10 < (0xFFFFFF : Pos).toNat := by decide

theorem witness_RdfReadsTheReceivedBit :
    ((1 : Pos) ≠ 0 ∧ doubleError.frame.fb[(1 : Pos).toNat - 1]? = some false) ∧
    ((8 : Pos) ≠ 0 ∧ doubleError.frame.fb[(8 : Pos).toNat - 1]? = some false) ∧
    doubleError.frame.fb.length < (9 : Pos).toNat ∧
    (decodes (.dech true) = true ∧ exec (.dech true) doubleError = .next (after (.dech true) doubleError) ∧
      exec (.rdf 3) (after (.dech true) doubleError) = .next (after (.rdf 3) (after (.dech true) doubleError)) ∧
      exec (.rdf 3) doubleError = .next (after (.rdf 3) doubleError)) :=
  ⟨by decide, by decide, by decide, by decide, rfl, rfl, rfl⟩

theorem witness_RdpReadsThePayload :
    doubleError.result.pb[(0 : Pos).toNat]? = some false ∧ doubleError.result.pb[(3 : Pos).toNat]? = some true ∧
    doubleError.result.pb.length ≤ (4 : Pos).toNat := by decide

theorem witness_RdeReadsTheReport :
    doubleError.result.er[(0 : Pos).toNat]? = some ⟨false, 1⟩ ∧
    doubleError.result.er[(7 : Pos).toNat]? = some ⟨false, 8⟩ ∧
    doubleError.result.er.length ≤ (8 : Pos).toNat := by decide

/-- Between the two reads: NOP, a read, and a rejected word. -/
theorem witness_ReadsChangeNothing :
    reads (.rds 11) = true ∧ wordOp 0x23FFFFFF ∈ [0x20, 0x21, 0x22, 0x23] ∧ OutOfRangeWord 0x21000009 doubleError ∧
    decode 0x00000000 = .ok .nop ∧ (decode 0x20000004 = .ok (.rds 4) ∧ reads (.rds 4) = true) ∧
    decode 0x10000002 = .error .reserved := by decide

/-- A decode that fails, one that runs; a word rejected for each cause, and one that is not, with no result held. -/
theorem witness_OutcomesMapToTheSourcesShapes :
    decodes .decf = true ∧ decodes (.dech true) = true ∧
    (after .decf doubleError).result.st.code.toNat = 15 ∧ doubleError.result.st.code.toNat = 4 ∧
    (after .decf (held 24 0x494848)).result.st.code.toNat = 9 ∧
    (after .decf (after (.pushc 0x32) full)).result.st.code.toNat = 12 ∧
    (after (.dech true) (after (.pushb true) full)).result.st.code.toNat = 13 ∧
    (after (.dech true) (held 0 0)).result.st.code.toNat = 14 ∧
    IllegalWord 0xFFFFFFFF ∧ (¬ IllegalWord 0x10000002 ∧ ReservedWord 0x10000002) ∧
    (¬ IllegalWord 0x2000000B ∧ ¬ ReservedWord 0x2000000B ∧ OutOfRangeWord 0x2000000B full) ∧
    (¬ IllegalWord 0x00000000 ∧ ¬ ReservedWord 0x00000000 ∧ ¬ OutOfRangeWord 0x00000000 full ∧
      full.result.st = .none) :=
  ⟨by decide, by decide, by decide, by decide, by decide, by decide, by decide, by decide, by decide, by decide,
    by decide, by decide⟩

/-- A host's reading: a frame too short (R137), a rejected word, and a corrected frame. -/
theorem test_sourceResponse :
    sourceResponse 0x0000001F (after .decf (held 15 0)) = some (.error (some .fletcher16) (some "E_SHORT")) ∧
    sourceResponse 0x82000000 (held 15 0) = some (.error none (some "C_RESERVED")) ∧
    sourceResponse 0x00000023 (after (.dech true) (held 8 0x46)) =
      some (.ok .hamming [true, false, true, true] 8 4 [⟨false, 3⟩]) := by decide

/-- Pins that are quiet, and a ready block. -/
def quiet : PinIn := { rst := false, cmdValid := false, cmd := 0, rspReady := false }

/-- A block at pin level in a given phase. -/
def pins (ph : Phase) : PinState := { core := held 8 0x42, phase := ph, accepted := 0 }

theorem witness_PinHandshake :
    quiet.rst = false ∧ (pins .ready).phase = .ready ∧ { quiet with cmdValid := true }.cmdValid = true ∧
    quiet.cmdValid = false ∧
    ((pins (.busy 0x10000001 0)).phase = .busy 0x10000001 0 ∧ [quiet].length = 0 + 1 ∧ ∀ j ∈ [quiet], j.rst = false) ∧
    (pins (.answering 0 5)).phase = .answering 0 5 := by decide

/-- A command cut short by a reset: the block is ready before and after. -/
theorem witness_PinsRefineTransactions :
    (pins .ready).phase = .ready ∧
    (pinRun [{ quiet with cmdValid := true, cmd := 0x10000001 }, { quiet with rst := true }] (pins .ready)).phase =
      .ready := ⟨rfl, rfl⟩

end Sys2Proof.Tests
end

/-! SUPPORT. The state family: command words and their instructions, what a command and a host action make of the
block, and the proofs of the statements on the result state, INV, OVF and the reset state. -/

namespace Sys2Proof.Machine

/-! ### Masks and fields of a bit vector -/

/-- Upper bits that are masked to zero are zero. -/
theorem extractLsb'_eq_zero_of_and_eq_zero {m k : Nat} {x : BitVec (m + k)}
    (h : x &&& (BitVec.allOnes m ++ 0#k) = 0#(m + k)) : x.extractLsb' k m = 0#m := by
  have hx : x.extractLsb' k m ++ x.extractLsb' 0 k = x := BitVec.extractLsb'_append_extractLsb'
  rw [← hx, BitVec.and_append, BitVec.and_allOnes, BitVec.and_zero, ← BitVec.zero_append_zero,
    BitVec.append_left_inj] at h
  exact h

/-- A field over zeros passes the mask of the bits above it. -/
theorem zero_append_and {m k : Nat} (x : BitVec k) :
    (0#m ++ x) &&& (BitVec.allOnes m ++ 0#k) = 0#(m + k) := by
  rw [BitVec.and_append, BitVec.zero_and, BitVec.and_zero, BitVec.zero_append_zero]

theorem ofBool_getLsbD_zero {n : Nat} (x : BitVec n) : BitVec.ofBool (x.getLsbD 0) = x.extractLsb' 0 1 := by
  ext k hk
  obtain rfl : k = 0 := by omega
  simp

/-- A field whose upper bits are masked to zero is its lower bits over zeros. -/
theorem zero_append_extractLsb'_of_and_eq_zero {m k : Nat} {x : BitVec (m + k)}
    (h : x &&& (BitVec.allOnes m ++ 0#k) = 0#(m + k)) : 0#m ++ x.extractLsb' 0 k = x := by
  rw [← extractLsb'_eq_zero_of_and_eq_zero h, BitVec.extractLsb'_append_extractLsb']

/-! ### The operand field (30_encoding.md R50, R52) -/

/-- An instruction's operand field has no reserved bit. -/
theorem arg_and_reserved (i : Instr) : i.arg &&& i.opcode.format.reserved = 0 := by
  cases i with
  | nop | clr | decf => exact BitVec.zero_and
  | pushb b | dech m => exact zero_append_and (m := 23) _
  | pushc c => exact zero_append_and (m := 16) c
  | pushn n v =>
    show (0#3 ++ n ++ v) &&& (BitVec.allOnes 3 ++ 0#5 ++ 0#16) = 0#24
    rw [BitVec.and_append, zero_append_and, BitVec.and_zero, BitVec.zero_append_zero]
  | rds _ | rdf _ | rdp _ | rde _ => exact BitVec.and_zero

/-- The operands of a well-formed instruction are read back from its operand field. -/
theorem operands_opcode_arg {i : Instr} (h : i.wellFormed = true) : operands i.opcode i.arg = .ok i := by
  cases i with
  | pushb b | dech b => cases b <;> rfl
  | pushc c => exact congrArg (fun x => Except.ok (Instr.pushc x)) BitVec.extractLsb'_append_eq_right
  | pushn n v =>
    have hn : BitVec.extractLsb' 16 5 (0#3 ++ n ++ v) = n := by
      rw [BitVec.extractLsb'_append_eq_of_le (Nat.le_refl 16)]
      exact BitVec.extractLsb'_append_eq_right
    have hv : BitVec.extractLsb' 0 16 (0#3 ++ n ++ v) = v := BitVec.extractLsb'_append_eq_right
    have hl : pushnLegal n v = true := h
    simp only [operands, Instr.opcode, Instr.arg, hn, hv, hl, if_true]
  | nop | clr | decf | rds _ | rdf _ | rdp _ | rde _ => rfl

/-- The instruction that an operand field without reserved bits makes is well formed, and the field is its own. -/
theorem arg_of_operands_eq_ok {o : Opcode} {arg : BitVec 24} {i : Instr} (hr : arg &&& o.format.reserved = 0)
    (h : operands o arg = .ok i) : i.wellFormed = true ∧ i.opcode = o ∧ i.arg = arg := by
  cases o with
  | nop | clr | decf =>
    obtain rfl := Except.ok.inj h
    exact ⟨rfl, rfl, hr.symm.trans BitVec.and_allOnes⟩
  | pushb | dech =>
    obtain rfl := Except.ok.inj h
    refine ⟨rfl, rfl, ?_⟩
    simp only [Instr.arg, ofBool_getLsbD_zero]
    exact zero_append_extractLsb'_of_and_eq_zero (m := 23) hr
  | pushc =>
    obtain rfl := Except.ok.inj h
    exact ⟨rfl, rfl, zero_append_extractLsb'_of_and_eq_zero (m := 16) hr⟩
  | pushn =>
    simp only [operands] at h
    split at h
    · next hl =>
      obtain rfl := Except.ok.inj h
      refine ⟨hl, rfl, ?_⟩
      have hhi : 0#3 = arg.extractLsb' 21 3 := (extractLsb'_eq_zero_of_and_eq_zero (m := 3) hr).symm
      have hmid : arg.extractLsb' 21 3 ++ arg.extractLsb' 16 5 = arg.extractLsb' 16 8 :=
        BitVec.extractLsb'_append_extractLsb'_eq_extractLsb' rfl
      simp only [Instr.arg]
      rw [hhi, hmid]
      exact BitVec.extractLsb'_append_extractLsb'
    · cases h
  | rds | rdf | rdp | rde =>
    obtain rfl := Except.ok.inj h
    exact ⟨rfl, rfl, rfl⟩

/-! ### Command words -/

theorem opField_append_argField (w : Word) : (opField w ++ argField w : Word) = w :=
  BitVec.extractLsb'_append_extractLsb'

/-- Decoding goes by the opcode's own row: the reserved bits, then the operands. -/
theorem decode_opcode_append (o : Opcode) (arg : BitVec 24) :
    decode (o.byte ++ arg : Word) =
      if arg &&& o.format.reserved = 0 then operands o arg else .error .reserved := by
  rw [decode, opField_append, argField_append, opcodeOf_eq_some.mpr rfl]

/-- The words that decode to an instruction are its encoding and nothing else, if it is well formed, and none
otherwise (30_encoding.md R52 to R54). -/
theorem decode_eq_ok_iff {w : Word} {i : Instr} : decode w = .ok i ↔ i.wellFormed = true ∧ encode i = w := by
  constructor
  · intro h
    cases ho : opcodeOf (opField w) with
    | none => simp [decode, ho] at h
    | some o =>
      have hw : (o.byte ++ argField w : Word) = w := by
        rw [← opcodeOf_eq_some.mp ho, opField_append_argField]
      rw [← hw, decode_opcode_append] at h
      split at h
      · next hr =>
        obtain ⟨hwf, hop, harg⟩ := arg_of_operands_eq_ok hr h
        exact ⟨hwf, by rw [encode, hop, harg, hw]⟩
      · cases h
  · rintro ⟨hwf, rfl⟩
    rw [encode, decode_opcode_append, if_pos (arg_and_reserved i), operands_opcode_arg hwf]

/-- CLR has one word. -/
theorem decode_eq_clr_iff {w : Word} : decode w = .ok .clr ↔ w = 0x01000000#32 := by
  rw [decode_eq_ok_iff]
  exact ⟨fun h => h.2.symm, fun h => ⟨rfl, h.symm⟩⟩

/-- The command word of PUSHC as a number (40_frame_load.md R69). -/
theorem encode_pushc (c : BitVec 8) : encode (.pushc c) = BitVec.ofNat 32 (0x03000000 + c.toNat) := by
  apply BitVec.eq_of_toNat_eq
  have hc : c.toNat < 2 ^ 24 := by omega
  have hop : Opcode.pushc.byte.toNat <<< 24 = 0x03000000 := by decide
  have harg : (Instr.pushc c).arg.toNat = c.toNat := (BitVec.toNat_append 0#16 c).trans (by simp)
  rw [encode, BitVec.toNat_append, harg, ← Nat.shiftLeft_add_eq_or_of_lt hc, BitVec.toNat_ofNat]
  simp only [Instr.opcode, hop]
  omega

/-! ### The kinds of commands -/

theorem decodes_eq_true_iff {i : Instr} : decodes i = true ↔ (∃ m, i = .dech m) ∨ i = .decf := by
  cases i <;> simp [decodes]

/-- NOP and the reads are the commands that neither load nor decode. -/
theorem nop_or_reads_iff {i : Instr} : i = .nop ∨ reads i = true ↔ loads i = false ∧ decodes i = false := by
  cases i <;> simp [reads, loads, decodes]

/-! ### The bits a command pushes -/

theorem pushedBits_of_not_loads {i : Instr} (h : loads i = false) : pushedBits i = [] := by
  cases i <;> simp_all [loads, pushedBits]

theorem loads_of_pushedBits {i : Instr} (h : pushedBits i ≠ []) : loads i = true := by
  by_contra hl
  exact h (pushedBits_of_not_loads (Bool.eq_false_of_not_eq_true hl))

/-- A PUSHC pushes the bit its symbol stands for, if any. -/
theorem pushedBits_pushc (c : BitVec 8) : pushedBits (.pushc c) = (symbolBit c).toList := by
  simp only [pushedBits, symbolBit, apply_ite Option.toList]
  rfl

/-- A PUSHC pushes nothing exactly when its symbol is no bit. -/
theorem pushedBits_pushc_eq_nil_iff {c : BitVec 8} : pushedBits (.pushc c) = [] ↔ c ≠ 0x30 ∧ c ≠ 0x31 := by
  rw [pushedBits_pushc, Option.toList_eq_nil_iff, symbolBit_eq_none, ch0, ch1]

theorem pushedBits_pushn_of_legal {n : BitVec 5} {v : BitVec 16} (h : pushnLegal n v = true) :
    pushedBits (.pushn n v) = pushBits n v :=
  if_pos (of_decide_eq_true h)

/-- A legal PUSHN pushes at least one bit. -/
theorem pushBits_ne_nil {n : BitVec 5} {v : BitVec 16} (h : pushnLegal n v = true) : pushBits n v ≠ [] := by
  obtain ⟨hn, -, -⟩ := of_decide_eq_true h
  intro hnil
  have := pushBits_length n v
  rw [hnil, List.length_nil] at this
  omega

/-- A PUSHN whose operands are not legal pushes nothing. -/
theorem pushedBits_of_not_wellFormed {i : Instr} (h : i.wellFormed = false) : pushedBits i = [] := by
  cases i with
  | pushn n v => exact if_neg (of_decide_eq_false h)
  | _ => cases h

/-! ### What a command does to the block -/

/-- What a command makes of the block before its response is delivered: one constructor for each thing it can do. -/
inductive Effect : Instr → State → State → Prop
  /-- NOP and the reads write nothing (40_frame_load.md R65; 43_readout.md R113). -/
  | keep {i : Instr} {s : State} : loads i = false → decodes i = false → Effect i s s
  /-- Operands that are not legal are rejected and nothing is written (30_encoding.md R53). -/
  | reject {i : Instr} {s : State} : i.wellFormed = false → Effect i s s
  /-- CLR begins a new frame (40_frame_load.md R66). -/
  | clear {s : State} : Effect .clr s s.clearBlock
  /-- A push clears the result and appends its bits (40_frame_load.md R67 to R70). -/
  | push {i : Instr} {s : State} : pushedBits i ≠ [] → Effect i s (s.clearResult.appendAll (pushedBits i))
  /-- A symbol that is no bit clears the result and sets INV (40_frame_load.md R69). -/
  | mark {c : BitVec 8} {s : State} : c ≠ 0x30 → c ≠ 0x31 → Effect (.pushc c) s s.clearResult.markInvalid
  /-- DECH writes the result of the frame (41_hamming.md R75). -/
  | hamming {m : Bit} {s : State} : Effect (.dech m) s (s.withResult (hammingResult s.frame m))
  /-- DECF writes the result of the frame (42_fletcher.md R100). -/
  | fletcher {s : State} : Effect .decf s (s.withResult (fletcherResult s.frame))

/-- Every command has one of the effects, and answers a next state with one response. -/
theorem exec_effect (i : Instr) (s : State) :
    ∃ (u : State) (r : Word), exec i s = .next (u.respond r) ∧ Effect i s u := by
  cases i with
  | nop => exact ⟨s, _, rfl, .keep rfl rfl⟩
  | clr => exact ⟨_, _, rfl, .clear⟩
  | pushb b => exact ⟨_, _, rfl, .push (List.cons_ne_nil b [])⟩
  | pushc c =>
    cases hc : symbolBit c with
    | none =>
      obtain ⟨h0, h1⟩ := symbolBit_eq_none.mp hc
      exact ⟨_, _, by rw [exec, execPushc, hc]; rfl, .mark h0 h1⟩
    | some b =>
      have hb : pushedBits (.pushc c) = [b] := by rw [pushedBits_pushc, hc]; rfl
      have hne : pushedBits (.pushc c) ≠ [] := by simp [hb]
      exact ⟨_, _, by rw [exec, execPushc, hc, hb]; rfl, .push hne⟩
  | pushn n v =>
    cases hl : pushnLegal n v with
    | false => exact ⟨s, _, by rw [exec, execPushn, hl]; rfl, .reject hl⟩
    | true =>
      have hb := pushedBits_pushn_of_legal hl
      have hne : pushedBits (.pushn n v) ≠ [] := hb ▸ pushBits_ne_nil hl
      exact ⟨_, _, by rw [exec, execPushn, hl, hb]; rfl, .push hne⟩
  | dech m => exact ⟨_, _, rfl, .hamming⟩
  | decf => exact ⟨_, _, rfl, .fletcher⟩
  | rds r => rw [exec, execRds]; split <;> exact ⟨s, _, rfl, .keep rfl rfl⟩
  | rdf p => rw [exec, execRdf]; split <;> exact ⟨s, _, rfl, .keep rfl rfl⟩
  | rdp k => rw [exec, execRdp]; split <;> exact ⟨s, _, rfl, .keep rfl rfl⟩
  | rde k => rw [exec, execRde]; split <;> exact ⟨s, _, rfl, .keep rfl rfl⟩

/-- The next state of a command is the block after its effect, with one response more. -/
theorem exec_cases {i : Instr} {s t : State} (h : exec i s = .next t) :
    ∃ (u : State) (r : Word), t = u.respond r ∧ Effect i s u := by
  obtain ⟨u, r, hu, he⟩ := exec_effect i s
  exact ⟨u, r, Host.Outcome.next.inj (h.symm.trans hu), he⟩

/-! ### What an action of the host does to the block -/

/-- A command word begins a frame exactly when it decodes to CLR. -/
theorem beginsFrame_command_iff {w : Word} : BeginsFrame (.command w) ↔ decode w = .ok .clr :=
  decode_eq_clr_iff.symm

/-- An action begins a new frame, or leaves the block alone (an idle host and a rejected word), or runs a command that
is not CLR. -/
theorem perform_cases {a : HostAction} {s t : State} (h : perform a s = .next t) :
    (BeginsFrame a ∧ t.frame = Frame.empty ∧ t.result = Result.clear) ∨
    (¬ BeginsFrame a ∧ t.frame = s.frame ∧ t.result = s.result ∧
      ∀ (w : Word) (i : Instr), a = .command w → decode w ≠ .ok i) ∨
    (∃ (w : Word) (i : Instr), a = .command w ∧ decode w = .ok i ∧ i ≠ .clr ∧ exec i s = .next t) := by
  cases a with
  | idle =>
    obtain rfl := Host.Outcome.next.inj h
    exact .inr (.inl ⟨id, rfl, rfl, nofun⟩)
  | reset | resetDuring =>
    obtain rfl := Host.Outcome.next.inj h
    exact .inl ⟨trivial, rfl, rfl⟩
  | command w =>
    have hrun : runCommand w s = .next t := h
    rw [beginsFrame_command_iff]
    cases hd : decode w with
    | error c =>
      rw [runCommand_of_error hd] at hrun
      obtain rfl := Host.Outcome.next.inj hrun
      exact .inr (.inl ⟨nofun, rfl, rfl, by rintro _ i ⟨⟩; simp [hd]⟩)
    | ok i =>
      rw [runCommand_of_ok hd] at hrun
      by_cases hi : i = .clr
      · subst hi
        obtain rfl := Host.Outcome.next.inj hrun
        exact .inl ⟨rfl, rfl, rfl⟩
      · exact .inr (.inr ⟨w, i, rfl, hd, hi, hrun⟩)

/-- The frame after an action that begins a new frame is empty with both flags clear. -/
theorem perform_frame_of_beginsFrame {a : HostAction} {s t : State} (hb : BeginsFrame a)
    (h : perform a s = .next t) : t.frame = Frame.empty := by
  obtain ⟨-, hf, -⟩ | ⟨hn, -⟩ | ⟨w, i, rfl, hd, hi, -⟩ := perform_cases h
  · exact hf
  · exact absurd hb hn
  · exact absurd (Except.ok.inj (hd.symm.trans (beginsFrame_command_iff.mp hb))) hi

/-! ### The lifetime of the result state (10_state.md R22) -/

/-- MODE records the operand, whether the decode fails or not (10_state.md R23). -/
@[simp] theorem hammingResult_mode (f : Frame) (m : Bit) : (hammingResult f m).mode = m := by
  simp [hammingResult, apply_ite Result.mode, Result.failure, hammingDecode]

/-- A decode's result is a function of the frame (10_state.md R22 (a)). -/
theorem exec_decode_result_congr {i : Instr} {s s' t t' : State} (hi : decodes i = true) (hf : s.frame = s'.frame)
    (h : exec i s = .next t) (h' : exec i s' = .next t') : t.result = t'.result := by
  obtain ⟨m, rfl⟩ | rfl := decodes_eq_true_iff.mp hi
  · obtain rfl := Host.Outcome.next.inj h
    obtain rfl := Host.Outcome.next.inj h'
    exact congrArg (hammingResult · m) hf
  · obtain rfl := Host.Outcome.next.inj h
    obtain rfl := Host.Outcome.next.inj h'
    exact congrArg fletcherResult hf

/-- CLR and every push that is executed clear the result (10_state.md R22 (b)). -/
theorem exec_load_result {i : Instr} {s t : State} (hi : loads i = true) (hw : i.wellFormed = true)
    (h : exec i s = .next t) : t.result = Result.clear := by
  obtain ⟨u, r, rfl, he⟩ := exec_cases h
  cases he with
  | keep hl => exact absurd hi (by simp [hl])
  | reject hr => exact absurd hw (by simp [hr])
  | hamming | fletcher => cases hi
  | clear | mark => rfl
  | push => simp

/-- A command that neither loads nor decodes leaves the result (10_state.md R22 (c)). -/
theorem exec_keep_result {i : Instr} {s t : State} (hl : loads i = false) (hd : decodes i = false)
    (h : exec i s = .next t) : t.result = s.result := by
  obtain ⟨u, r, rfl, he⟩ := exec_cases h
  cases he with
  | keep | reject => rfl
  | clear | mark => cases hl
  | push hp => exact absurd (loads_of_pushedBits hp) (by simp [hl])
  | hamming | fletcher => cases hd

theorem exec_keeps_resultOfFrame {i : Instr} {s t : State} (hs : ResultOfFrame s) (h : exec i s = .next t) :
    ResultOfFrame t := by
  obtain ⟨u, r, rfl, he⟩ := exec_cases h
  cases he with
  | keep | reject => exact hs
  | clear | mark => exact .inl rfl
  | push => exact .inl (by simp)
  | hamming => exact .inr (.inl (by simp))
  | fletcher => exact .inr (.inr rfl)

theorem perform_keeps_resultOfFrame {a : HostAction} {s t : State} (hs : ResultOfFrame s)
    (h : perform a s = .next t) : ResultOfFrame t := by
  obtain ⟨-, -, hr⟩ | ⟨-, hf, hr, -⟩ | ⟨w, i, -, -, -, he⟩ := perform_cases h
  · exact .inl hr
  · rw [ResultOfFrame, hf, hr]
    exact hs
  · exact exec_keeps_resultOfFrame hs he

theorem step_keeps_resultOfFrame {s t : State} (hs : ResultOfFrame s) (h : step s = .next t) : ResultOfFrame t := by
  cases hin : s.inputs with
  | nil =>
    rw [step_of_nil hin] at h
    exact Host.Outcome.next.inj h ▸ hs
  | cons a rest =>
    rw [step_of_cons hin] at h
    exact perform_keeps_resultOfFrame (s := s.withInputs rest) hs h

/-- Settles O24: each clause is the lemma on its kind of command or action, all of them read off `exec_cases` and
`perform_cases`. -/
theorem resultStateIsOfTheCurrentFrame : Obligations.ResultStateIsOfTheCurrentFrame := by
  refine ⟨fun i s s' t t' => exec_decode_result_congr, fun i s t => exec_load_result, ?_, ?_, ?_,
    .inl rfl, fun s t => step_keeps_resultOfFrame⟩
  · rintro s t w rest (hin | hin) h
    all_goals
      rw [step_of_cons hin] at h
      obtain rfl := Host.Outcome.next.inj h
      rfl
  · intro i s t hi
    obtain ⟨hl, hd⟩ := nop_or_reads_iff.mp hi
    exact exec_keep_result hl hd
  · intro s t w c rest hin hd h
    rw [step_of_cons hin, perform, runCommand_of_error hd] at h
    obtain rfl := Host.Outcome.next.inj h
    rfl

/-! ### INV is sticky (10_state.md R18) -/

theorem hammingResult_of_inv {f : Frame} (h : f.inv = true) (m : Bit) :
    hammingResult f m = Result.failure .eInvalid false m := if_pos h

theorem fletcherResult_of_inv {f : Frame} (h : f.inv = true) :
    fletcherResult f = Result.failure .eInvalid true false := if_pos h

/-- The symbol that is no bit is not stored. -/
theorem exec_pushc_frame_of_bad {c : BitVec 8} {s t : State} (h0 : c ≠ 0x30) (h1 : c ≠ 0x31)
    (h : exec (.pushc c) s = .next t) : t.frame = { s.frame with inv := true } := by
  obtain ⟨u, r, rfl, he⟩ := exec_cases h
  cases he with
  | mark => rfl
  | push hp => exact absurd (pushedBits_pushc_eq_nil_iff.mpr ⟨h0, h1⟩) hp
  | keep hl => cases hl
  | reject hw => cases hw

/-- Of the commands but CLR only a PUSHC of a symbol that is no bit sets INV, and none clears it. -/
theorem exec_inv_iff {i : Instr} {s t : State} (hi : i ≠ .clr) (h : exec i s = .next t) :
    t.frame.inv = true ↔ s.frame.inv = true ∨ ∃ c : BitVec 8, i = .pushc c ∧ c ≠ 0x30 ∧ c ≠ 0x31 := by
  have hbad : pushedBits i ≠ [] → ¬ ∃ c : BitVec 8, i = .pushc c ∧ c ≠ 0x30 ∧ c ≠ 0x31 := by
    rintro hp ⟨c, rfl, hc⟩
    exact hp (pushedBits_pushc_eq_nil_iff.mpr hc)
  obtain ⟨u, r, rfl, he⟩ := exec_cases h
  cases he with
  | clear => exact absurd rfl hi
  | mark h0 h1 => exact ⟨fun _ => .inr ⟨_, rfl, h0, h1⟩, fun _ => rfl⟩
  | push hp => simp only [respond_frame, appendAll_frame, clearResult_frame, hbad hp, or_false]
  | keep hl =>
    have : ∀ c, i ≠ .pushc c := by rintro c rfl; cases hl
    simp [this]
  | reject hw =>
    have : ∀ c, i ≠ .pushc c := by rintro c rfl; cases hw
    simp [this]
  | hamming | fletcher => simp

/-- A word is that of a PUSHC exactly when it decodes to it. -/
theorem decode_eq_pushc_iff {w : Word} {c : BitVec 8} :
    decode w = .ok (.pushc c) ↔ w = BitVec.ofNat 32 (0x03000000 + c.toNat) := by
  rw [decode_eq_ok_iff, encode_pushc]
  exact ⟨fun h => h.2.symm, fun h => ⟨rfl, h.symm⟩⟩

theorem perform_inv_iff {a : HostAction} {s t : State} (hb : ¬ BeginsFrame a) (h : perform a s = .next t) :
    t.frame.inv = true ↔ s.frame.inv = true ∨
      ∃ c : BitVec 8, a = .command (BitVec.ofNat 32 (0x03000000 + c.toNat)) ∧ c ≠ 0x30 ∧ c ≠ 0x31 := by
  obtain ⟨hb', -⟩ | ⟨-, hf, -, hd⟩ | ⟨w, i, rfl, hd, hi, he⟩ := perform_cases h
  · exact absurd hb' hb
  · have hno : ∀ c : BitVec 8, a ≠ .command (BitVec.ofNat 32 (0x03000000 + c.toNat)) :=
      fun c hc => hd _ (.pushc c) hc (decode_eq_pushc_iff.mpr rfl)
    simp [hf, hno]
  · simp only [exec_inv_iff hi he, HostAction.command.injEq, ← decode_eq_pushc_iff, hd, Except.ok.injEq]

/-- Settles O19: an action that begins a frame empties it, any other changes INV as `perform_inv_iff` says, and INV is
the first of a decode's pre-checks. -/
theorem invIsSticky : Obligations.InvIsSticky := by
  refine ⟨fun s t a rest hin h => ?_, fun s t c h0 h1 h => ?_, fun s i hinv hi => ?_⟩
  · rw [step_of_cons hin] at h
    refine ⟨fun hb => ?_, fun hb => perform_inv_iff (s := s.withInputs rest) hb h⟩
    rw [perform_frame_of_beginsFrame hb h]
    rfl
  · exact exec_pushc_frame_of_bad h0 h1 h
  · obtain ⟨m, rfl⟩ | rfl := decodes_eq_true_iff.mp hi
    · exact ⟨_, rfl, congrArg Result.st (hammingResult_of_inv hinv m)⟩
    · exact ⟨_, rfl, congrArg Result.st (fletcherResult_of_inv hinv)⟩

/-! ### OVF is sticky and the bits that fit are stored (10_state.md R19) -/

theorem hammingResult_of_ovf {f : Frame} (hi : f.inv = false) (h : f.ovf = true) (m : Bit) :
    hammingResult f m = Result.failure .eOvf false m := by
  simp [hammingResult, hi, h]

theorem fletcherResult_of_ovf {f : Frame} (hi : f.inv = false) (h : f.ovf = true) :
    fletcherResult f = Result.failure .eOvf true false := by
  simp [fletcherResult, hi, h]

/-- What a command but CLR makes of FB and OVF: the bits it pushes, as far as they fit, are stored, and OVF is set when
one did not fit. -/
theorem exec_fb_ovf {i : Instr} {s t : State} (hi : i ≠ .clr) (h : exec i s = .next t) :
    t.frame.fb = s.frame.fb ++ (pushedBits i).take (s.params.nmax - s.frame.fb.length) ∧
    (t.frame.ovf = true ↔ s.frame.ovf = true ∨
      (pushedBits i ≠ [] ∧ s.params.nmax < s.frame.fb.length + (pushedBits i).length)) := by
  obtain ⟨u, r, rfl, he⟩ := exec_cases h
  cases he with
  | clear => exact absurd rfl hi
  | push =>
    rw [respond_frame, appendAll_frame]
    refine ⟨rfl, ?_⟩
    rw [Bool.or_eq_true, decide_eq_true_eq]
    rfl
  | keep hl => simp [pushedBits_of_not_loads hl]
  | reject hw => simp [pushedBits_of_not_wellFormed hw]
  | mark h0 h1 => simp [pushedBits_pushc_eq_nil_iff.mpr ⟨h0, h1⟩]
  | hamming | fletcher => simp [pushedBits]

theorem perform_keeps_ovf {a : HostAction} {s t : State} (hb : ¬ BeginsFrame a) (h : perform a s = .next t)
    (ho : s.frame.ovf = true) : t.frame.ovf = true := by
  obtain ⟨hb', -⟩ | ⟨-, hf, -⟩ | ⟨w, i, -, -, hi, he⟩ := perform_cases h
  · exact absurd hb' hb
  · rw [hf, ho]
  · exact (exec_fb_ovf hi he).2.mpr (.inl ho)

/-- Settles O20: `exec_fb_ovf` for the commands, `perform_keeps_ovf` for the host's actions, and OVF is the second of a
decode's pre-checks. -/
theorem ovfIsStickyAndBitsThatFitAreStored : Obligations.OvfIsStickyAndBitsThatFitAreStored := by
  refine ⟨fun i s t => exec_fb_ovf, fun s t a rest hin h => ?_, fun s i hovf hinv hi => ?_⟩
  · rw [step_of_cons hin] at h
    refine ⟨fun hb => ?_, fun hb => perform_keeps_ovf (s := s.withInputs rest) hb h⟩
    rw [perform_frame_of_beginsFrame hb h]
    rfl
  · obtain ⟨m, rfl⟩ | rfl := decodes_eq_true_iff.mp hi
    · exact ⟨_, rfl, congrArg Result.st (hammingResult_of_ovf hinv hovf m)⟩
    · exact ⟨_, rfl, congrArg Result.st (fletcherResult_of_ovf hinv hovf)⟩

/-! ### The reset state (10_state.md R34) -/

/-- CLR leaves the empty frame and the clear result, and answers 0 (40_frame_load.md R66). -/
theorem exec_clr (s : State) : exec .clr s = .next (s.clearBlock.respond (okWord 0)) := rfl

/-- Settles O7: field by field by the definition of the reset state, and by `exec_clr`. -/
theorem resetStateIsTheClearState : Obligations.ResetStateIsTheClearState :=
  ⟨rfl, rfl, rfl, rfl, fun s => exec_clr s⟩

end Sys2Proof.Machine

/-! SUPPORT. The memory family: the frame buffer is append-only. -/

namespace Sys2Proof.Machine

/-! ### The frame buffer is append-only (20_memory.md R36) -/

/-- A decode leaves the whole input-side state. -/
theorem exec_decode_frame {i : Instr} {s t : State} (hi : decodes i = true) (h : exec i s = .next t) :
    t.frame = s.frame := by
  obtain ⟨m, rfl⟩ | rfl := decodes_eq_true_iff.mp hi
  all_goals
    obtain rfl := Host.Outcome.next.inj h
    rfl

/-- A command but CLR only appends to FB. -/
theorem exec_fb_prefix {i : Instr} {s t : State} (hi : i ≠ .clr) (h : exec i s = .next t) :
    s.frame.fb <+: t.frame.fb :=
  ⟨_, (exec_fb_ovf hi h).1.symm⟩

/-- An action of the host that begins no frame only appends to FB. -/
theorem perform_fb_prefix {a : HostAction} {s t : State} (hb : ¬ BeginsFrame a) (h : perform a s = .next t) :
    s.frame.fb <+: t.frame.fb := by
  obtain ⟨hb', -⟩ | ⟨-, hf, -⟩ | ⟨w, i, -, -, hi, he⟩ := perform_cases h
  · exact absurd hb' hb
  · rw [hf]
  · exact exec_fb_prefix hi he

/-- Settles O18: an action that begins a frame empties FB, by `perform_fb_prefix` any other appends to it, and
`exec_decode_frame` says that a decode leaves the frame. -/
theorem frameBufferIsAppendOnly : Obligations.FrameBufferIsAppendOnly := by
  refine ⟨fun s t h => ?_, fun i s t => exec_decode_frame⟩
  cases hin : s.inputs with
  | nil =>
    rw [step_of_nil hin] at h
    obtain rfl := Host.Outcome.next.inj h
    exact .inl List.prefix_rfl
  | cons a rest =>
    rw [step_of_cons hin] at h
    by_cases hb : BeginsFrame a
    · have hf : t.frame = Frame.empty := perform_frame_of_beginsFrame hb h
      exact .inr ⟨congrArg Frame.fb hf, a, rest, rfl, hb⟩
    · exact .inl (perform_fb_prefix (s := s.withInputs rest) hb h)

end Sys2Proof.Machine

/-! SUPPORT. The encoding family: the three tests of a command word, read off its decoding and the meaning of its
instruction. -/

namespace Sys2Proof.Machine

/-! ### The fields of a command word as numbers (30_encoding.md R50) -/

theorem wordOp_eq_opField (w : Word) : wordOp w = (opField w).toNat := by
  rw [wordOp, opField, BitVec.extractLsb'_toNat, Nat.shiftRight_eq_div_pow]
  omega

theorem wordArg_eq_argField (w : Word) : wordArg w = (argField w).toNat := by
  rw [wordArg, argField, BitVec.extractLsb'_toNat, Nat.shiftRight_zero]

theorem wordOp_append (op : BitVec 8) (arg : BitVec 24) : wordOp (op ++ arg : Word) = op.toNat := by
  rw [wordOp_eq_opField, opField_append]

theorem wordArg_append (op : BitVec 8) (arg : BitVec 24) : wordArg (op ++ arg : Word) = arg.toNat := by
  rw [wordArg_eq_argField, argField_append]

/-! ### Test 1: the opcode (30_encoding.md R53) -/

theorem illegalWord_iff {w : Word} : IllegalWord w ↔ opcodeOf (opField w) = none := by
  show wordOp w ∉ Opcode.all.map (fun o => o.byte.toNat) ↔ _
  simp [opcodeOf, wordOp_eq_opField, BitVec.toNat_inj]

theorem decode_of_illegalWord {w : Word} (h : IllegalWord w) : decode w = .error .illegal := by
  rw [decode, illegalWord_iff.mp h]

/-- A word that is not illegal is a defined opcode over an operand field. -/
theorem exists_opcode_of_not_illegalWord {w : Word} (h : ¬ IllegalWord w) :
    ∃ (o : Opcode) (arg : BitVec 24), w = o.byte ++ arg := by
  obtain ⟨o, ho⟩ := Option.ne_none_iff_exists'.mp (mt illegalWord_iff.mpr h)
  exact ⟨o, argField w, by rw [← opcodeOf_eq_some.mp ho, opField_append_argField]⟩

/-! ### Test 2: the reserved bits and the operands of PUSHN (30_encoding.md R53) -/

/-- The upper bits of a field are zero exactly when it is below the weight of the lowest of them. -/
theorem and_upperMask_eq_zero_iff {m k : Nat} {x : BitVec (m + k)} :
    x &&& (BitVec.allOnes m ++ 0#k) = 0#(m + k) ↔ x.toNat / 2 ^ k = 0 := by
  have hdiv : x.toNat / 2 ^ k < 2 ^ m := by
    rw [Nat.div_lt_iff_lt_mul (Nat.two_pow_pos k), ← Nat.pow_add]
    exact x.isLt
  have hhi : (x.extractLsb' k m).toNat = x.toNat / 2 ^ k := by
    rw [BitVec.extractLsb'_toNat, Nat.shiftRight_eq_div_pow, Nat.mod_eq_of_lt hdiv]
  constructor
  · intro h
    rw [← hhi, extractLsb'_eq_zero_of_and_eq_zero h, BitVec.toNat_zero]
  · intro h
    have hzero : x.extractLsb' k m = 0#m := BitVec.eq_of_toNat_eq (by rw [hhi, h, BitVec.toNat_zero])
    have hx : 0#m ++ x.extractLsb' 0 k = x := by rw [← hzero, BitVec.extractLsb'_append_extractLsb']
    rw [← hx, zero_append_and]

/-- The number of operand bits below the reserved ones (30_encoding.md R50). -/
def operandWidth : Format → Nat
  | .z => 0
  | .b => 1
  | .c => 8
  | .n => 21
  | .i => 24

theorem and_reserved_eq_zero_iff (f : Format) (arg : BitVec 24) :
    arg &&& f.reserved = 0 ↔ arg.toNat / 2 ^ operandWidth f = 0 := by
  cases f with
  | z => exact and_upperMask_eq_zero_iff (m := 24) (k := 0)
  | b => exact and_upperMask_eq_zero_iff (m := 23) (k := 1)
  | c => exact and_upperMask_eq_zero_iff (m := 16) (k := 8)
  | n => exact and_upperMask_eq_zero_iff (m := 3) (k := 21)
  | i => exact and_upperMask_eq_zero_iff (m := 0) (k := 24)

/-- The operands PUSHN accepts, by arithmetic on its operand field. -/
theorem pushnLegal_extract_iff (arg : BitVec 24) :
    pushnLegal (arg.extractLsb' 16 5) (arg.extractLsb' 0 16) = true ↔
      ¬ (arg.toNat / 2 ^ 16 % 32 = 0 ∨ 16 < arg.toNat / 2 ^ 16 % 32 ∨
        2 ^ (arg.toNat / 2 ^ 16 % 32) ≤ arg.toNat % 2 ^ 16) := by
  have hn : (arg.extractLsb' 16 5).toNat = arg.toNat / 2 ^ 16 % 32 := by
    rw [BitVec.extractLsb'_toNat, Nat.shiftRight_eq_div_pow]
  have hv : (arg.extractLsb' 0 16).toNat = arg.toNat % 2 ^ 16 := by
    rw [BitVec.extractLsb'_toNat, Nat.shiftRight_zero]
  rw [pushnLegal, decide_eq_true_iff, hn, hv]
  omega

/-- An opcode over its operand field fails test 2 by a reserved bit or by the operands of PUSHN. -/
theorem reservedWord_append_iff (o : Opcode) (arg : BitVec 24) :
    ReservedWord (o.byte ++ arg) ↔ ¬ arg &&& o.format.reserved = 0 ∨
      (o = .pushn ∧ ¬ pushnLegal (arg.extractLsb' 16 5) (arg.extractLsb' 0 16) = true) := by
  rw [and_reserved_eq_zero_iff, pushnLegal_extract_iff, not_not]
  simp only [ReservedWord, wordOp_append, wordArg_append]
  cases o with
  | nop | clr | decf | pushb | dech | pushc | pushn =>
    simp [Opcode.byte, Opcode.format, operandWidth]
  | rds | rdf | rdp | rde =>
    have harg : arg.toNat < 16777216 := arg.isLt
    simp [Opcode.byte, Opcode.format, operandWidth, harg]

/-- Only words of commands that are no read fail test 2. -/
theorem wordOp_of_reservedWord {w : Word} (h : ReservedWord w) :
    wordOp w ∈ [0x00, 0x01, 0x02, 0x03, 0x04, 0x10, 0x11] := by
  obtain ⟨hop, -⟩ | ⟨hop, -⟩ | ⟨hop, -⟩ | ⟨hop, -⟩ := h
  · exact List.Sublist.subset (by decide) hop
  · exact List.Sublist.subset (by decide) hop
  · rw [hop]; decide
  · rw [hop]; decide

theorem not_reservedWord_of_illegalWord {w : Word} (h : IllegalWord w) : ¬ ReservedWord w := fun hr =>
  h (List.Sublist.subset (by decide) (wordOp_of_reservedWord hr))

theorem decode_of_reservedWord {w : Word} (h : ReservedWord w) : decode w = .error .reserved := by
  obtain ⟨o, arg, rfl⟩ := exists_opcode_of_not_illegalWord (mt not_reservedWord_of_illegalWord (not_not.mpr h))
  rw [decode_opcode_append]
  obtain hr | ⟨rfl, hl⟩ := (reservedWord_append_iff o arg).mp h
  · rw [if_neg hr]
  · have hop : operands .pushn arg = .error .reserved := if_neg hl
    rw [hop, ite_self]

/-- A word that passes the first two tests decodes to an instruction. -/
theorem exists_decode_eq_ok {w : Word} (hi : ¬ IllegalWord w) (hr : ¬ ReservedWord w) :
    ∃ i, decode w = .ok i := by
  obtain ⟨o, arg, rfl⟩ := exists_opcode_of_not_illegalWord hi
  rw [reservedWord_append_iff, not_or, not_not] at hr
  obtain ⟨hbits, hlegal⟩ := hr
  rw [decode_opcode_append, if_pos hbits]
  cases o with
  | pushn => exact ⟨_, if_pos (not_not.mp fun hl => hlegal ⟨rfl, hl⟩)⟩
  | nop | clr | decf | pushb | dech | pushc | rds | rdf | rdp | rde => exact ⟨_, rfl⟩

/-! ### Test 3: the index of a read (20_memory.md R42, R44) -/

/-- The instruction is a read whose index addresses nothing. -/
def IndexOutOfRange (s : State) : Instr → Prop
  | .rds r => 10 < r.toNat
  | .rdf p => p.toNat = 0 ∨ s.frame.fb.length < p.toNat
  | .rdp k => s.result.pb.length ≤ k.toNat
  | .rde k => s.result.er.length ≤ k.toNat
  | .nop | .clr | .pushb _ | .pushc _ | .pushn _ _ | .dech _ | .decf => False

theorem outOfRangeWord_encode_iff {i : Instr} {s : State} : OutOfRangeWord (encode i) s ↔ IndexOutOfRange s i := by
  simp only [OutOfRangeWord, encode, wordOp_append, wordArg_append]
  cases i <;> simp [Instr.opcode, Instr.arg, Opcode.byte, IndexOutOfRange]

/-- A read whose index addresses nothing is rejected with C_RANGE. -/
theorem exec_of_indexOutOfRange {i : Instr} {s : State} (h : IndexOutOfRange s i) : exec i s = s.reject .range := by
  cases i with
  | rds r => rw [exec, execRds, registerOf_eq_none.mpr h]
  | rdf p => rw [exec, execRdf, frameBit_eq_none.mpr h]
  | rdp k => rw [exec, execRdp, payloadBit_eq_none.mpr h]
  | rde k => rw [exec, execRde, reportEntry_eq_none.mpr h]
  | nop | clr | pushb _ | pushc _ | pushn _ _ | dech _ | decf => exact h.elim

/-- Every other well-formed instruction executes and answers data. -/
theorem exec_of_not_indexOutOfRange {i : Instr} {s : State} (hw : i.wellFormed = true)
    (h : ¬ IndexOutOfRange s i) :
    ∃ (u : State) (d : BitVec 25), exec i s = u.ok d ∧ u.responses = s.responses := by
  cases i with
  | nop => exact ⟨s, _, rfl, rfl⟩
  | clr => exact ⟨s.clearBlock, _, rfl, rfl⟩
  | pushb b => exact ⟨s.clearResult.append b, _, rfl, rfl⟩
  | pushc c => rw [exec, execPushc]; split <;> exact ⟨_, _, rfl, rfl⟩
  | pushn n v =>
    have hl : pushnLegal n v = true := hw
    exact ⟨s.clearResult.appendAll (pushBits n v), _, by rw [exec, execPushn, if_pos hl]; rfl,
      appendAll_responses _ _⟩
  | dech m => exact ⟨s.withResult _, _, rfl, rfl⟩
  | decf => exact ⟨s.withResult _, _, rfl, rfl⟩
  | rds r =>
    obtain ⟨reg, hreg⟩ := Option.ne_none_iff_exists'.mp (mt registerOf_eq_none.mp h)
    exact ⟨s, _, by rw [exec, execRds, hreg]; rfl, rfl⟩
  | rdf p =>
    obtain ⟨b, hb⟩ := Option.ne_none_iff_exists'.mp (mt frameBit_eq_none.mp h)
    exact ⟨s, _, by rw [exec, execRdf, hb]; rfl, rfl⟩
  | rdp k =>
    obtain ⟨b, hb⟩ := Option.ne_none_iff_exists'.mp (mt payloadBit_eq_none.mp h)
    exact ⟨s, _, by rw [exec, execRdp, hb]; rfl, rfl⟩
  | rde k =>
    obtain ⟨e, he⟩ := Option.ne_none_iff_exists'.mp (mt reportEntry_eq_none.mp h)
    exact ⟨s, _, by rw [exec, execRde, he], rfl⟩

/-- Only words of reads fail test 3. -/
theorem wordOp_of_outOfRangeWord {w : Word} {s : State} (h : OutOfRangeWord w s) :
    wordOp w ∈ [0x20, 0x21, 0x22, 0x23] := by
  obtain ⟨hop, -⟩ | ⟨hop, -⟩ | ⟨hop, -⟩ | ⟨hop, -⟩ := h <;> simp [hop]

theorem not_outOfRangeWord_of_illegalWord {w : Word} {s : State} (h : IllegalWord w) : ¬ OutOfRangeWord w s :=
  fun ho => h (List.Sublist.subset (by decide) (wordOp_of_outOfRangeWord ho))

theorem not_outOfRangeWord_of_reservedWord {w : Word} {s : State} (h : ReservedWord w) :
    ¬ OutOfRangeWord w s := by
  have hdisj : ∀ n ∈ [0x00, 0x01, 0x02, 0x03, 0x04, 0x10, 0x11], n ∉ [0x20, 0x21, 0x22, 0x23] := by decide
  exact fun ho => hdisj _ (wordOp_of_reservedWord h) (wordOp_of_outOfRangeWord ho)

/-! ### The step at a command word -/

theorem step_of_decode_ok {s : State} {w : Word} {rest : List HostAction} {i : Instr}
    (hin : s.inputs = .command w :: rest) (hd : decode w = .ok i) : step s = exec i (s.withInputs rest) := by
  rw [step_of_cons hin, perform, runCommand_of_ok hd]

theorem step_of_decode_error {s : State} {w : Word} {rest : List HostAction} {c : CmdError}
    (hin : s.inputs = .command w :: rest) (hd : decode w = .error c) :
    step s = (s.withInputs rest).reject c := by
  rw [step_of_cons hin, perform, runCommand_of_error hd]

/-- A rejection changes nothing but the response. -/
theorem reject_withInputs (s : State) (rest : List HostAction) (c : CmdError) :
    (s.withInputs rest).reject c =
      .next { s with inputs := rest, responses := s.responses ++ [rejectWord c] } := rfl

/-- Test 3 does not look at what the host does next. -/
theorem outOfRangeWord_iff_of_decode {w : Word} {i : Instr} (h : decode w = .ok i) (s : State)
    (rest : List HostAction) : OutOfRangeWord w s ↔ IndexOutOfRange (s.withInputs rest) i := by
  obtain ⟨-, rfl⟩ := decode_eq_ok_iff.mp h
  exact outOfRangeWord_encode_iff (s := s.withInputs rest)

/-- Settles O3: the first two tests by `decode_of_illegalWord`, `decode_of_reservedWord` and `exists_decode_eq_ok`, the
third by what a read does with its index, and two words with one meaning are both the encoding of it. -/
theorem commandWordOutcomes : Obligations.CommandWordOutcomes := by
  refine ⟨fun s w rest hin => ⟨fun hi => ?_, fun hi hr => ?_, fun hi hr ho => ?_, fun hi hr ho => ?_,
    fun ⟨hi, hr⟩ => not_reservedWord_of_illegalWord hi hr, fun ⟨hi, ho⟩ => not_outOfRangeWord_of_illegalWord hi ho,
    fun ⟨hr, ho⟩ => not_outOfRangeWord_of_reservedWord hr ho⟩, fun w w' i h h' => ?_⟩
  · rw [step_of_decode_error hin (decode_of_illegalWord hi), reject_withInputs, rejectWord_eq]
  · rw [step_of_decode_error hin (decode_of_reservedWord hr), reject_withInputs, rejectWord_eq]
  · obtain ⟨i, hd⟩ := exists_decode_eq_ok hi hr
    rw [step_of_decode_ok hin hd, exec_of_indexOutOfRange ((outOfRangeWord_iff_of_decode hd s rest).mp ho),
      reject_withInputs, rejectWord_eq]
  · obtain ⟨i, hd⟩ := exists_decode_eq_ok hi hr
    obtain ⟨hw, -⟩ := decode_eq_ok_iff.mp hd
    obtain ⟨u, d, hu, hresp⟩ :=
      exec_of_not_indexOutOfRange hw (mt (outOfRangeWord_iff_of_decode hd s rest).mpr ho)
    have hs := step_of_decode_ok hin hd
    exact ⟨i, u.respond (okWord d), d, hd, hs, hs.trans hu, by rw [respond_responses, hresp]; rfl⟩
  · rw [← (decode_eq_ok_iff.mp h).2, (decode_eq_ok_iff.mp h').2]

end Sys2Proof.Machine

/-! SUPPORT. The frame-loading family: what a push makes of the block and answers, the bits of a PUSHN as PUSHBs, and
the proofs of the statements on NOP, CLR, PUSHB, PUSHC and PUSHN. -/

namespace Sys2Proof.Machine

/-! ### The answer of a push (40_frame_load.md R67) -/

/-- The response word of a push is the length in 24 bits. -/
theorem answerLen_eq_next (s : State) :
    s.answerLen = .next (s.respond (BitVec.ofNat 32 (s.frame.fb.length % 2 ^ 24))) := by
  have hword : okWord ((lenView s.frame).setWidth 25) = BitVec.ofNat 32 (s.frame.fb.length % 2 ^ 24) := by
    rw [okWord_setWidth]
    apply BitVec.eq_of_toNat_eq
    simp only [lenView, lengthView, Frame.len, BitVec.toNat_setWidth, BitVec.toNat_ofNat]
  rw [answerLen_eq, okData_eq, hword]

/-! ### Pushing one bit (40_frame_load.md R67, R68) -/

/-- With room in the buffer the bit is stored at position LEN + 1. -/
theorem append_answerLen_of_room {s : State} (h : s.frame.fb.length < s.params.nmax) (b : Bit) :
    (s.clearResult.append b).answerLen = .next { s with
      frame := { s.frame with fb := s.frame.fb ++ [b] }
      result := Result.clear
      responses := s.responses ++ [BitVec.ofNat 32 ((s.frame.fb.length + 1) % 2 ^ 24)] } := by
  have hf : s.frame.append s.params.nmax b = { s.frame with fb := s.frame.fb ++ [b] } := if_pos h
  have hs : s.clearResult.append b =
      (s.withFrame { s.frame with fb := s.frame.fb ++ [b] }).withResult Result.clear := by
    rw [← hf]; rfl
  rw [hs, answerLen_eq_next, withResult_frame, withFrame_frame, List.length_append, List.length_singleton]
  rfl

/-- At a full buffer the bit is dropped and OVF set. -/
theorem append_answerLen_of_full {s : State} (h : s.params.nmax ≤ s.frame.fb.length) (b : Bit) :
    (s.clearResult.append b).answerLen = .next { s with
      frame := { s.frame with ovf := true }
      result := Result.clear
      responses := s.responses ++ [BitVec.ofNat 32 (s.frame.fb.length % 2 ^ 24)] } := by
  have hf : s.frame.append s.params.nmax b = { s.frame with ovf := true } := if_neg (Nat.not_lt.mpr h)
  have hs : s.clearResult.append b = (s.withFrame { s.frame with ovf := true }).withResult Result.clear := by
    rw [← hf]; rfl
  rw [hs, answerLen_eq_next]
  rfl

theorem exec_pushb (b : Bit) (s : State) : exec (.pushb b) s = (s.clearResult.append b).answerLen := rfl

/-- The two characters are pushed as the bits they stand for (40_frame_load.md R69). -/
theorem exec_pushc_char (b : Bit) (s : State) :
    exec (.pushc (if b then 0x31 else 0x30)) s = (s.clearResult.append b).answerLen := by
  have hb : symbolBit (if b then 0x31 else 0x30) = some b := by cases b <;> rfl
  rw [exec, execPushc, hb]

/-- Any other symbol is not stored and sets INV, whether the buffer is full or not (40_frame_load.md R69). -/
theorem exec_pushc_of_bad {c : BitVec 8} (h0 : c ≠ 0x30) (h1 : c ≠ 0x31) (s : State) :
    exec (.pushc c) s = .next { s with
      frame := { s.frame with inv := true }
      result := Result.clear
      responses := s.responses ++ [BitVec.ofNat 32 (s.frame.fb.length % 2 ^ 24)] } := by
  have hc : symbolBit c = none := symbolBit_eq_none.mpr ⟨h0, h1⟩
  rw [exec, execPushc, hc]
  exact answerLen_eq_next _

/-! ### NOP and CLR -/

/-- Settles O11: NOP delivers its response on the unchanged state, and an operand is a reserved word. -/
theorem nopChangesNothing : Obligations.NopChangesNothing :=
  ⟨by decide, fun _ => rfl,
    fun _ hop harg => decode_of_reservedWord (.inl ⟨by simp [hop], harg⟩)⟩

/-- Settles O12: `exec_clr`, and what any other command does to FB, INV and OVF by `exec_fb_prefix`, `exec_inv_iff` and
`exec_fb_ovf`. -/
theorem clrBeginsANewFrame : Obligations.ClrBeginsANewFrame := by
  refine ⟨by decide, fun s => exec_clr s, fun i s t hi h => ⟨?_, ?_, ?_⟩, fun w hop harg => ?_⟩
  · exact (exec_fb_prefix hi h).length_le
  · exact fun hinv => (exec_inv_iff hi h).mpr (.inl hinv)
  · exact fun hovf => (exec_fb_ovf hi h).2.mpr (.inl hovf)
  · exact decode_of_reservedWord (.inl ⟨by simp [hop], harg⟩)

/-! ### PUSHB and PUSHC -/

/-- Settles O13: the two cases of the buffer, the pre-check of OVF (O20), and an operand beyond bit 0 is a reserved
word. -/
theorem pushbAppendsOneBit : Obligations.PushbAppendsOneBit := by
  obtain ⟨-, -, hdecode⟩ := ovfIsStickyAndBitsThatFitAreStored
  refine ⟨by decide, fun b s => ⟨fun h => ?_, fun h => ?_⟩, hdecode, fun w hop harg => ?_⟩
  · exact append_answerLen_of_room h b
  · exact append_answerLen_of_full h b
  · exact decode_of_reservedWord (.inr (.inl ⟨by simp [hop], harg⟩))

/-- Settles O14: a character is pushed as PUSHB pushes its bit, any other symbol as `exec_pushc_of_bad` says, the
pre-check of INV (O19), and an operand beyond eight bits is a reserved word. -/
theorem pushcValidatesItsSymbol : Obligations.PushcValidatesItsSymbol := by
  obtain ⟨-, -, hdecode⟩ := invIsSticky
  refine ⟨encode_pushc, fun b s => ⟨fun h => ?_, fun h => ?_⟩, hdecode,
    fun c s h0 h1 => exec_pushc_of_bad h0 h1 s, fun w hop harg => ?_⟩
  · rw [exec_pushc_char, append_answerLen_of_room h]
  · rw [exec_pushc_char, append_answerLen_of_full h]
  · exact decode_of_reservedWord (.inr (.inr (.inl ⟨hop, harg⟩)))

/-! ### PUSHN (40_frame_load.md R70) -/

/-- The command word of PUSHN as a number. -/
theorem encode_pushn (n : BitVec 5) (v : BitVec 16) :
    encode (.pushn n v) = BitVec.ofNat 32 (0x04000000 + n.toNat * 2 ^ 16 + v.toNat) := by
  apply BitVec.eq_of_toNat_eq
  have hop : Opcode.pushn.byte.toNat <<< 24 = 0x04000000 := by decide
  have harg : (Instr.pushn n v).arg.toNat = n.toNat * 2 ^ 16 + v.toNat := by
    rw [Instr.arg, BitVec.toNat_append, BitVec.toNat_append, ← Nat.shiftLeft_add_eq_or_of_lt v.isLt,
      Nat.shiftLeft_eq]
    simp
  rw [encode, BitVec.toNat_append, ← Nat.shiftLeft_add_eq_or_of_lt (Instr.pushn n v).arg.isLt, harg,
    BitVec.toNat_ofNat]
  simp only [Instr.opcode, hop]
  omega

theorem exec_pushn_of_legal {n : BitVec 5} {v : BitVec 16} (h : pushnLegal n v = true) (s : State) :
    exec (.pushn n v) s = (s.clearResult.appendAll (pushBits n v)).answerLen := if_pos h

theorem exec_pushn_of_not_legal {n : BitVec 5} {v : BitVec 16} (h : ¬ pushnLegal n v = true) (s : State) :
    exec (.pushn n v) s = .next { s with responses := s.responses ++ [0x82000000#32] } := by
  rw [exec, execPushn, if_neg h, reject_eq, rejectWord_eq]
  rfl

/-- Appending looks at FB and NMAX alone: what was answered before stays beside it. -/
theorem appendAll_with_responses (bs : List Bit) (s : State) (rs : List Word) :
    State.appendAll { s with responses := rs } bs = { s.appendAll bs with responses := rs } := by
  induction bs generalizing s with
  | nil => rfl
  | cons b bs ih => exact ih (s.append b)

/-- A push of one bit or more: the bits that fit are stored, and OVF is set if one did not fit. -/
theorem appendAll_answerLen {bs : List Bit} (h : bs ≠ []) (s : State) :
    (s.clearResult.appendAll bs).answerLen = .next { s with
      frame := { fb := s.frame.fb ++ bs.take (s.params.nmax - s.frame.fb.length)
                 inv := s.frame.inv
                 ovf := s.frame.ovf || decide (s.params.nmax < s.frame.fb.length + bs.length) }
      result := Result.clear
      responses := s.responses ++ [BitVec.ofNat 32
        ((s.frame.fb ++ bs.take (s.params.nmax - s.frame.fb.length)).length % 2 ^ 24)] } := by
  rw [answerLen_eq_next]
  simp [State.respond, appendAll_frame, h, Frame.len]

/-- A program takes its first command's step and goes on from the state that leaves. -/
theorem runAll_cons {i : Instr} {s t : State} (h : exec i s = .next t) (is : List Instr) :
    runAll (i :: is) s = runAll is t := by
  simp [runAll, h]

/-- Pushing bits one by one, at least one, ends as one push of them all does; only the earlier responses differ. -/
theorem runAll_map_pushb {bs : List Bit} (h : bs ≠ []) (s : State) :
    ∃ rs : List Word, runAll (bs.map Instr.pushb) s =
      State.answerLen { s.clearResult.appendAll bs with responses := rs } := by
  induction bs generalizing s with
  | nil => exact absurd rfl h
  | cons b bs ih =>
    cases bs with
    | nil => exact ⟨s.responses, rfl⟩
    | cons b' bs =>
      obtain ⟨x, hx⟩ : ∃ x, exec (.pushb b) s = .next ((s.clearResult.append b).respond x) := ⟨_, rfl⟩
      obtain ⟨rs, hrs⟩ := ih (List.cons_ne_nil b' bs) ((s.clearResult.append b).respond x)
      have happ : ((s.clearResult.append b).respond x).clearResult.appendAll (b' :: bs) =
          { s.clearResult.appendAll (b :: b' :: bs) with responses := s.responses ++ [x] } :=
        appendAll_with_responses (b' :: bs) (s.clearResult.append b) _
      exact ⟨rs, by rw [List.map_cons, runAll_cons hx, hrs, happ]⟩

/-- Settles O15: `appendAll_answerLen` for the state PUSHN leaves, `runAll_map_pushb` for the PUSHB commands, which
answer the same length last. -/
theorem pushnAppendsItsBits : Obligations.PushnAppendsItsBits := by
  refine ⟨encode_pushn, fun n v s h1 h16 hv => ?_, fun n v s h => ?_, fun w _ hr => decode_of_reservedWord hr⟩
  · have hl : pushnLegal n v = true := decide_eq_true ⟨h1, h16, hv⟩
    have hne : pushBits n v ≠ [] := pushBits_ne_nil hl
    have hexec := exec_pushn_of_legal hl s
    constructor
    · rw [hexec, appendAll_answerLen hne, pushBits_length]
      rfl
    · obtain ⟨rs, hrun⟩ := runAll_map_pushb hne s
      rw [answerLen_eq_next] at hexec hrun
      exact ⟨_, _, hexec, hrun, rfl, by simp⟩
  · exact exec_pushn_of_not_legal (mt of_decide_eq_true h) s

end Sys2Proof.Machine

/-! SUPPORT. The Hamming family: the parity layout, coverage, parities that count ones, the syndrome bit by bit, the
payload, what DECH writes on a frame that can be decoded, and the proofs of the statements on them. -/

namespace Sys2Proof.Machine

/-! ### The parity layout (41_hamming.md R76) -/

theorem lt_bitlen_iff {k M : Nat} : k < bitlen M ↔ 2 ^ k ≤ M := by
  by_cases h : M = 0
  · simp [bitlen, h]
  · rw [bitlen, if_neg h, Nat.lt_succ_iff, Nat.le_log2 h]

theorem bitlen_le_iff {k M : Nat} : bitlen M ≤ k ↔ M < 2 ^ k := by
  rw [← not_lt, lt_bitlen_iff, not_le]

theorem isPow2_iff {i : Nat} : isPow2 i = true ↔ ∃ k, i = 2 ^ k := by
  by_cases h : i = 0
  · subst h
    exact iff_of_false (by decide) fun ⟨k, hk⟩ => (Nat.two_pow_pos k).ne hk
  · rw [isPow2, Bool.and_eq_true, decide_eq_true_iff, decide_eq_true_iff,
      Nat.and_sub_one_eq_zero_iff_isPowerOfTwo h]
    exact and_iff_right (Nat.one_le_iff_ne_zero.mpr h)

theorem mem_parityPositions {M i : Nat} : i ∈ parityPositions M ↔ ∃ k, i = 2 ^ k ∧ 2 ^ k ≤ M := by
  simp only [parityPositions, List.mem_map, List.mem_range, lt_bitlen_iff]
  exact exists_congr fun k => and_comm.trans (and_congr_left' eq_comm)

theorem mem_parityPositions_iff_isPow2 {M i : Nat} :
    i ∈ parityPositions M ↔ 1 ≤ i ∧ i ≤ M ∧ isPow2 i = true := by
  rw [mem_parityPositions, isPow2_iff]
  constructor
  · rintro ⟨k, rfl, hk⟩
    exact ⟨Nat.one_le_two_pow, hk, k, rfl⟩
  · rintro ⟨-, hM, k, rfl⟩
    exact ⟨k, rfl, hM⟩

theorem parityPositions_pairwise_lt (M : Nat) : (parityPositions M).Pairwise (· < ·) :=
  List.pairwise_map.mpr (List.pairwise_lt_range.imp fun h => Nat.pow_lt_pow_right (by decide) h)

@[simp] theorem parityPositions_length (M : Nat) : (parityPositions M).length = bitlen M := by
  simp [parityPositions]

/-- The global parity position N lies beyond the layout of the code block. -/
theorem not_mem_parityPositions_pred (N : Nat) : N ∉ parityPositions (N - 1) := by
  rw [mem_parityPositions_iff_isPow2]
  omega

/-- Settles O26: membership by `mem_parityPositions` and `mem_parityPositions_iff_isPow2`, order and number from the
exponents 0 to bitlen(M) − 1. -/
theorem parityLayoutIsThePowersOfTwo : Obligations.ParityLayoutIsThePowersOfTwo :=
  ⟨fun _ _ => mem_parityPositions, fun _ _ => mem_parityPositions_iff_isPow2,
    fun M => ⟨parityPositions_pairwise_lt M, parityPositions_length M⟩, not_mem_parityPositions_pred,
    by decide, by decide, by decide, by decide, by decide⟩

/-! ### Coverage (41_hamming.md R78) -/

/-- Parity position 2^k covers the positions whose bit k is set. -/
theorem covers_two_pow (k i : Nat) : covers (2 ^ k) i = i.testBit k := by
  rw [covers, Nat.and_two_pow]
  cases i.testBit k <;> simp

/-- Settles O27: bit k of i is floor(i / 2^k) mod 2. -/
theorem coveredPositionsAreTheOddRuns : Obligations.CoveredPositionsAreTheOddRuns := by
  refine ⟨fun k i => ?_, fun k => ?_, by decide, by decide, by decide, by decide⟩
  · rw [covers_two_pow, Nat.testBit_eq_decide_div_mod_eq, decide_eq_true_iff]
  · rw [covers_two_pow, Nat.testBit_two_pow_self]

/-! ### Parities count ones (41_hamming.md R79, R82) -/

/-- The XOR of the bits of a list's elements is 1 exactly when an odd number of them have the bit 1. -/
theorem xorAll_map_iff {α : Type} (f : α → Bit) (l : List α) :
    xorAll (l.map f) = true ↔ (l.filter f).length % 2 = 1 := by
  induction l with
  | nil => simp
  | cons a l ih =>
    cases ha : f a with
    | false => simp [ha, ih]
    | true =>
      rw [List.map_cons, xorAll_cons, ha, Bool.true_xor, Bool.not_eq_true', ← Bool.not_eq_true, ih,
        List.filter_cons_of_pos ha, List.length_cons]
      omega

theorem groupParity_iff (code : List Bit) (p : Nat) : groupParity code p = true ↔
    ((positions code.length).filter fun i => covers p i && bitAt code i).length % 2 = 1 := by
  rw [groupParity, xorAll_map_iff, List.filter_filter]
  simp only [Bool.and_comm]

theorem globalComputed_iff (fb : List Bit) :
    globalComputed fb = true ↔ (fb.filter fun b => b).length % 2 = 1 := by
  rw [globalComputed, ← xorAll_map_iff, List.map_id']

/-- The parities of two frames of one length differ by the parity of their positionwise XOR. -/
theorem xorAll_xor_xorAll {f g : List Bit} (h : f.length = g.length) :
    (xorAll f ^^ xorAll g) = xorAll ((f.zip g).map fun p => p.1 != p.2) := by
  induction f generalizing g with
  | nil =>
    obtain rfl := List.length_eq_zero_iff.mp h.symm
    rfl
  | cons a f ih =>
    cases g with
    | nil => cases h
    | cons b g =>
      rw [List.zip_cons_cons, List.map_cons, xorAll_cons, xorAll_cons, xorAll_cons, ← ih (Nat.succ.inj h),
        Bool.xor_assoc, Bool.xor_left_comm (xorAll f), ← Bool.xor_assoc]

theorem globalComputed_ne_iff {f g : List Bit} (h : f.length = g.length) :
    globalComputed f ≠ globalComputed g ↔ distance f g % 2 = 1 := by
  rw [distance, ← xorAll_map_iff, ← xorAll_xor_xorAll h, Bool.xor_iff_ne]
  rfl

/-! ### The syndrome bit by bit (41_hamming.md R80) -/

/-- The powers of two below 2^n that a test selects, ascending: the summands of a syndrome. -/
def selectedPowers (odd : Nat → Bool) (n : Nat) : List Nat := ((List.range n).map (2 ^ ·)).filter odd

theorem syndrome_eq_sum (code : List Bit) :
    syndrome code = (selectedPowers (groupParity code) (bitlen code.length)).sum := rfl

theorem selectedPowers_succ (odd : Nat → Bool) (n : Nat) :
    selectedPowers odd (n + 1) = selectedPowers odd n ++ if odd (2 ^ n) then [2 ^ n] else [] := by
  rw [selectedPowers, List.range_succ, List.map_append, List.filter_append]
  cases h : odd (2 ^ n) <;> simp [selectedPowers, h]

theorem sum_selectedPowers_lt (odd : Nat → Bool) (n : Nat) : (selectedPowers odd n).sum < 2 ^ n := by
  induction n with
  | zero => simp [selectedPowers]
  | succ n ih =>
    rw [selectedPowers_succ, List.sum_append, Nat.pow_succ]
    split
    · rw [List.sum_singleton]
      omega
    · rw [List.sum_nil]
      omega

/-- Adding the next power of two to smaller ones never carries. -/
theorem sum_selectedPowers_succ (odd : Nat → Bool) (n : Nat) :
    (selectedPowers odd (n + 1)).sum =
      if odd (2 ^ n) then (selectedPowers odd n).sum ||| 2 ^ n else (selectedPowers odd n).sum := by
  rw [selectedPowers_succ, List.sum_append]
  split
  · have hor := Nat.two_pow_add_eq_or_of_lt (sum_selectedPowers_lt odd n) 1
    rw [Nat.mul_one] at hor
    rw [List.sum_singleton, Nat.add_comm, hor, Nat.or_comm]
  · rfl

theorem foldl_or_selectedPowers (odd : Nat → Bool) (n : Nat) :
    (selectedPowers odd n).foldl (· ||| ·) 0 = (selectedPowers odd n).sum := by
  induction n with
  | zero => rfl
  | succ n ih =>
    rw [sum_selectedPowers_succ, selectedPowers_succ, List.foldl_append, ih]
    split <;> rfl

theorem testBit_sum_selectedPowers (odd : Nat → Bool) (n k : Nat) :
    (selectedPowers odd n).sum.testBit k = (decide (k < n) && odd (2 ^ k)) := by
  induction n with
  | zero => simp [selectedPowers]
  | succ n ih =>
    rw [sum_selectedPowers_succ, apply_ite (Nat.testBit · k), Nat.testBit_or, Nat.testBit_two_pow, ih]
    obtain hk | rfl | hk := Nat.lt_trichotomy k n
    · simp [hk, hk.ne', Nat.lt_succ_of_lt hk]
    · simp
    · simp [hk.ne, Nat.not_lt_of_gt hk, Nat.not_le_of_gt hk]

/-- Bit k of the syndrome is the parity of the group of 2^k. -/
theorem testBit_syndrome (code : List Bit) (k : Nat) :
    (syndrome code).testBit k = (decide (2 ^ k ≤ code.length) && groupParity code (2 ^ k)) := by
  simp only [syndrome_eq_sum, testBit_sum_selectedPowers, lt_bitlen_iff]

theorem syndrome_lt (code : List Bit) : syndrome code < 2 ^ bitlen code.length := sum_selectedPowers_lt _ _

theorem syndrome_eq_foldl_add (code : List Bit) : syndrome code =
    (parityPositions code.length).foldl (fun syn p => if groupParity code p then syn + p else syn) 0 := by
  rw [syndrome, List.sum_eq_foldl, List.foldl_filter]

theorem syndrome_eq_foldl_or (code : List Bit) : syndrome code =
    (parityPositions code.length).foldl (fun syn p => if groupParity code p then syn ||| p else syn) 0 := by
  rw [syndrome_eq_sum, ← foldl_or_selectedPowers, selectedPowers, List.foldl_filter]
  rfl

/-! ### A code block whose groups are all odd (41_hamming.md R80) -/

/-- The code block of length M that holds 1 exactly at its parity positions. -/
def parityOnesBlock (M : Nat) : List Bit := (List.range M).map fun k => isPow2 (k + 1)

@[simp] theorem parityOnesBlock_length (M : Nat) : (parityOnesBlock M).length = M := by
  simp [parityOnesBlock]

theorem bitAt_parityOnesBlock {M i : Nat} (h1 : 1 ≤ i) (hM : i ≤ M) :
    bitAt (parityOnesBlock M) i = isPow2 i := by
  rw [bitAt_eq_getElem h1 (by simpa using hM)]
  simp [parityOnesBlock, Nat.sub_add_cancel h1]

theorem nodup_positions (M : Nat) : (positions M).Nodup := List.nodup_range'

/-- Parity positions cover each other only themselves, so every group holds one 1. -/
theorem groupParity_parityOnesBlock {M k : Nat} (h : 2 ^ k ≤ M) :
    groupParity (parityOnesBlock M) (2 ^ k) = true := by
  have honly : ∀ i ∈ positions M,
      (covers (2 ^ k) i && bitAt (parityOnesBlock M) i) = (i == 2 ^ k) := by
    intro i hi
    obtain ⟨h1, hM⟩ := mem_positions.mp hi
    rw [bitAt_parityOnesBlock h1 hM, covers_two_pow, Bool.eq_iff_iff, Bool.and_eq_true, isPow2_iff, beq_iff_eq]
    constructor
    · rintro ⟨hbit, j, rfl⟩
      rw [Nat.testBit_two_pow, decide_eq_true_iff] at hbit
      rw [hbit]
    · rintro rfl
      exact ⟨Nat.testBit_two_pow_self, k, rfl⟩
  rw [groupParity_iff, parityOnesBlock_length, List.filter_congr honly, ← List.count_eq_length_filter,
    List.count_eq_one_of_mem (nodup_positions M) (mem_positions.mpr ⟨Nat.one_le_two_pow, h⟩)]

theorem syndrome_parityOnesBlock (M : Nat) : syndrome (parityOnesBlock M) = 2 ^ bitlen M - 1 := by
  refine Nat.eq_of_testBit_eq fun k => ?_
  rw [testBit_syndrome, Nat.testBit_two_pow_sub_one, parityOnesBlock_length]
  by_cases h : 2 ^ k ≤ M
  · simp [h, lt_bitlen_iff, groupParity_parityOnesBlock h]
  · simp [h, lt_bitlen_iff]

/-- Settles O29: sum and OR agree because adding a power of two to smaller ones never carries
(`sum_selectedPowers_succ`), and the block of ones at the parity positions has every bit of its syndrome set. -/
theorem syndromeIsTheSumOfOddGroups : Obligations.SyndromeIsTheSumOfOddGroups := by
  refine ⟨fun code => ⟨syndrome_eq_foldl_add code, syndrome_eq_foldl_or code, syndrome_lt code, fun h => ?_⟩,
    fun M hM => ⟨parityOnesBlock M, parityOnesBlock_length M, ?_⟩,
    ⟨parityOnesBlock 6, parityOnesBlock_length 6, syndrome_parityOnesBlock 6⟩, rfl, rfl⟩
  · exact (syndrome_lt code).trans_le (Nat.pow_le_pow_right (by decide) (bitlen_le_iff.mpr h))
  · have hlt : M < 2 ^ bitlen M := bitlen_le_iff.mp le_rfl
    have hne : M + 1 ≠ 2 ^ bitlen M := hM (bitlen M)
    rw [syndrome_parityOnesBlock]
    omega

/-! ### The payload (41_hamming.md R91) -/

/-- The positions with `ispow2` are the parity layout, in order. -/
theorem filter_isPow2_positions (M : Nat) : (positions M).filter isPow2 = parityPositions M := by
  have hlt : ((positions M).filter isPow2).Pairwise (· < ·) := (List.pairwise_lt_range' 1).filter _
  have hmem : ∀ i, i ∈ (positions M).filter isPow2 ↔ i ∈ parityPositions M := fun i => by
    rw [List.mem_filter, mem_positions, mem_parityPositions_iff_isPow2, and_assoc]
  exact List.Perm.eq_of_pairwise (fun a b _ _ hab hba => absurd hab hba.asymm) hlt (parityPositions_pairwise_lt M)
    ((List.perm_ext_iff_of_nodup hlt.nodup (parityPositions_pairwise_lt M).nodup).mpr hmem)

theorem payload_length (code : List Bit) : (payload code).length = code.length - bitlen code.length := by
  have hpos : (positions code.length).length = code.length := List.length_range'
  have hsum := List.length_eq_length_filter_add (l := positions code.length) isPow2
  rw [hpos, filter_isPow2_positions, parityPositions_length] at hsum
  rw [payload, List.length_map]
  omega

theorem payload_eq_filter_not_mem (code : List Bit) : payload code =
    ((List.range' 1 code.length).filter fun i => i ∉ parityPositions code.length).map (bitAt code) := by
  refine congrArg (List.map (bitAt code)) (List.filter_congr fun i hi => ?_)
  obtain ⟨h1, hM⟩ := mem_positions.mp hi
  simp [mem_parityPositions_iff_isPow2, h1, hM]

theorem payload_eq_nil {code : List Bit} (h : code.length ≤ 2) : payload code = [] := by
  rw [← List.length_eq_zero_iff, payload_length]
  have hbitlen : ∀ M ≤ 2, M - bitlen M = 0 := by decide
  exact hbitlen _ h

/-! ### What DECH writes and answers (41_hamming.md R75, R83 to R89) -/

theorem exec_dech_result {s t : State} {m : Bit} (h : exec (.dech m) s = .next t) :
    t.result = hammingResult s.frame m := by
  obtain rfl := Host.Outcome.next.inj h
  rfl

theorem hammingResult_of_clean {s : State} (h : Clean s) (m : Bit) :
    hammingResult s.frame m = hammingDecode s.frame.fb m := by
  obtain ⟨hinv, hovf, hfb⟩ := h
  simp [hammingResult, hinv, hovf, Frame.len, hfb]

/-- A frame that cannot be decoded fails one of the three pre-checks (60_exceptions.md R126). -/
theorem hammingResult_of_not_clean {s : State} (h : ¬ Clean s) (m : Bit) :
    ∃ st ∈ [Status.eInvalid, .eOvf, .eEmpty], hammingResult s.frame m = Result.failure st false m := by
  cases hinv : s.frame.inv with
  | true => exact ⟨_, by decide, hammingResult_of_inv hinv m⟩
  | false =>
    cases hovf : s.frame.ovf with
    | true => exact ⟨_, by decide, hammingResult_of_ovf hinv hovf m⟩
    | false =>
      have hfb : s.frame.fb = [] := by_contra fun hfb => h ⟨hinv, hovf, hfb⟩
      exact ⟨.eEmpty, by decide, by simp [hammingResult, hinv, hovf, Frame.len, hfb]⟩

/-- The result in mode 1 from the syndrome, the overall parity and what the classifier makes of them. -/
theorem hammingDecode_secded {fb : List Bit} {syn : Nat} {gpc : Bit} {v : Verdict}
    (hsyn : syndrome (fb.take (fb.length - 1)) = syn) (hgpc : globalComputed fb = gpc)
    (hv : classifySecded (fb.take (fb.length - 1)) (bitAt fb fb.length) fb.length syn gpc = v) :
    hammingDecode fb true =
      { st := v.st, alg := false, mode := true, syn := BitVec.ofNat 24 syn, gpc := gpc,
        gpb := bitAt fb fb.length, cpos := BitVec.ofNat 24 v.cpos, s1 := 0, s2 := 0, rxck := 0,
        pb := payload v.code, er := v.er } := by
  subst hsyn hgpc hv
  simp [hammingDecode, split, Result.clear]

/-- The result in mode 0: the whole frame is the code block. -/
theorem hammingDecode_plain {fb : List Bit} {syn : Nat} {v : Verdict} (hsyn : syndrome fb = syn)
    (hv : classifyPlain fb syn = v) :
    hammingDecode fb false =
      { st := v.st, alg := false, mode := false, syn := BitVec.ofNat 24 syn, gpc := false, gpb := false,
        cpos := BitVec.ofNat 24 v.cpos, s1 := 0, s2 := 0, rxck := 0, pb := payload v.code, er := v.er } := by
  subst hsyn hv
  rfl

/-- On a frame that can be decoded DECH writes the decode's result and answers its STATUS view. -/
theorem exec_dech_of_clean {s : State} {m : Bit} {r : Result} (h : Clean s) (hr : hammingDecode s.frame.fb m = r) :
    exec (.dech m) s = .next { s with
      result := r
      responses := s.responses ++ [okWord ((statusView r).setWidth 25)] } := by
  rw [← hr, ← hammingResult_of_clean h]
  rfl

/-! ### The classes (41_hamming.md R83 to R89) -/

theorem classifySecded_noErr (code : List Bit) (gp : Bit) (N : Nat) :
    classifySecded code gp N 0 false = verdictNoErr code := rfl

theorem classifySecded_gpErr (code : List Bit) (gp : Bit) (N : Nat) :
    classifySecded code gp N 0 true = verdictGpErr code gp N := rfl

theorem classifySecded_dbl {syn : Nat} (h : syn ≠ 0) (code : List Bit) (gp : Bit) (N : Nat) :
    classifySecded code gp N syn false = verdictDbl code gp N syn := by
  simp [classifySecded, h]

theorem classifySecded_corr {code : List Bit} {syn : Nat} (h : syn ≠ 0) (hM : syn ≤ code.length) (gp : Bit)
    (N : Nat) : classifySecded code gp N syn true = verdictCorr code syn := by
  simp [classifySecded, h, hM]

theorem classifySecded_oor {code : List Bit} {syn : Nat} (hM : code.length < syn) (gp : Bit)
    (N : Nat) : classifySecded code gp N syn true = verdictOor code syn := by
  simp [classifySecded, Nat.ne_zero_of_lt hM, Nat.not_le_of_gt hM]

theorem classifyPlain_noErr {syn : Nat} (h : syn = 0) (code : List Bit) :
    classifyPlain code syn = verdictNoErr code := if_pos h

theorem classifyPlain_corr {code : List Bit} {syn : Nat} (h : syn ≠ 0) (hM : syn ≤ code.length) :
    classifyPlain code syn = verdictCorr code syn := by
  simp [classifyPlain, h, hM]

theorem classifyPlain_oor {code : List Bit} {syn : Nat} (hM : code.length < syn) :
    classifyPlain code syn = verdictOor code syn := by
  simp [classifyPlain, Nat.ne_zero_of_lt hM, Nat.not_le_of_gt hM]

/-! ### The parity and the classes without candidate pairs -/

/-- Settles O28: `xorAll_map_iff` for the counts of ones, `xorAll_xor_xorAll` for the distance, and DECH 1 stores the
parity of the frame as received. -/
theorem paritiesCountOnes : Obligations.ParitiesCountOnes := by
  refine ⟨groupParity_iff, globalComputed_iff, fun f g => globalComputed_ne_iff, fun s t hc h => ?_⟩
  rw [exec_dech_result h, hammingResult_of_clean hc, hammingDecode_secded rfl rfl rfl]

/-- Settles O31: syndrome and overall parity are 0, which is the class H_NOERR. -/
theorem dechNoError : Obligations.DechNoError := fun _ hc hsyn hgpc =>
  exec_dech_of_clean hc (hammingDecode_secded hsyn hgpc (classifySecded_noErr _ _ _))

/-- Settles O32: the syndrome is 0 and the overall parity 1, which is the class H_GPERR. -/
theorem dechGlobalParityError : Obligations.DechGlobalParityError := fun _ hc hsyn hgpc =>
  exec_dech_of_clean hc (hammingDecode_secded hsyn hgpc (classifySecded_gpErr _ _ _))

/-- Settles O37: the three classes of `classifyPlain`, by the syndrome. -/
theorem dechPlainMode : Obligations.DechPlainMode := fun _ hc =>
  ⟨fun hsyn => exec_dech_of_clean hc (hammingDecode_plain rfl (classifyPlain_noErr hsyn _)),
    fun hsyn hM => exec_dech_of_clean hc (hammingDecode_plain rfl (classifyPlain_corr hsyn hM)),
    fun hM => exec_dech_of_clean hc (hammingDecode_plain rfl (classifyPlain_oor hM))⟩

/-! ### The candidate pairs (41_hamming.md R87, R88) -/

theorem bitAt_take {bits : List Bit} {n i : Nat} (h : i ≤ n) : bitAt (bits.take n) i = bitAt bits i := by
  cases i with
  | zero => rfl
  | succ k => simp [List.getD, List.getElem?_take_of_lt h]

/-- Up to its end the start of a frame holds the frame's bits. -/
theorem entryAt_take {bits : List Bit} {n i : Nat} (h : i ≤ (bits.take n).length) :
    entryAt (bits.take n) i = entryAt bits i := by
  rw [entryAt, bitAt_take (h.trans (List.length_take_le n bits)), entryAt]

/-- A loop that skips some of its indices is the loop over the others. -/
theorem flatMap_if_nil {α β : Type} (p : α → Prop) [DecidablePred p] (f : α → List β) (l : List α) :
    (l.flatMap fun a => if p a then f a else []) = (l.filter fun a => p a).flatMap f := by
  induction l with
  | nil => rfl
  | cons a l ih =>
    by_cases h : p a
    · simp [h, ih]
    · simp [h, ih]

/-- The loop of R87, its entries read from the frame that the code block is the start of. -/
theorem candidatePairs_take (fb : List Bit) (n syn : Nat) :
    candidatePairs (fb.take n) syn =
      ((List.range' 1 (fb.take n).length).filter fun i => i < i ^^^ syn ∧ i ^^^ syn ≤ (fb.take n).length).flatMap
        fun i => [entryAt fb i, entryAt fb (i ^^^ syn)] := by
  rw [candidatePairs, flatMap_if_nil, positions]
  refine List.flatMap_congr fun i hi => ?_
  obtain ⟨hlt, hle⟩ := of_decide_eq_true (List.mem_filter.mp hi).2
  rw [entryAt_take hle, entryAt_take (hlt.le.trans hle)]

/-- The additional pair of R88, its first entry read from the frame. -/
theorem additionalPair_take {syn : Nat} (h : syn ≠ 0) (fb : List Bit) (n : Nat) (gp : Bit) (N : Nat) :
    additionalPair (fb.take n) gp N syn =
      if syn ≤ (fb.take n).length then [entryAt fb syn, { v := gp, pos := BitVec.ofNat 24 N }] else [] := by
  rw [additionalPair]
  by_cases hM : syn ≤ (fb.take n).length
  · rw [if_pos ⟨Nat.one_le_iff_ne_zero.mpr h, hM⟩, if_pos hM, entryAt_take hM]
  · rw [if_neg fun hsyn => hM hsyn.2, if_neg hM]

/-- Settles O35: the class H_DBL of `classifySecded`, its two lists read from the frame by `candidatePairs_take` and
`additionalPair_take`. -/
theorem dechListsCandidatePairs : Obligations.DechListsCandidatePairs := by
  intro s hc fb code syn entry hsyn hgpc
  have hr := hammingDecode_secded rfl hgpc (classifySecded_dbl hsyn _ _ _)
  rw [verdictDbl, candidatePairs_take, additionalPair_take hsyn] at hr
  exact exec_dech_of_clean hc hr

/-! ### The payload of a decode (41_hamming.md R91) -/

/-- The verdict's code block is the received one, corrected in class H_CORR only. -/
theorem classifySecded_code (code : List Bit) (gp : Bit) (N syn : Nat) (gpc : Bit) :
    (classifySecded code gp N syn gpc).code =
      if (classifySecded code gp N syn gpc).st = .hCorr then flipBit code syn else code := by
  by_cases h : syn = 0
  · subst h
    cases gpc <;> rfl
  · cases gpc with
    | false => rw [classifySecded_dbl h]; rfl
    | true =>
      obtain hM | hM := le_or_gt syn code.length
      · rw [classifySecded_corr h hM]; rfl
      · rw [classifySecded_oor hM]; rfl

theorem classifyPlain_code (code : List Bit) (syn : Nat) :
    (classifyPlain code syn).code =
      if (classifyPlain code syn).st = .hCorr then flipBit code syn else code := by
  by_cases h : syn = 0
  · rw [classifyPlain_noErr h]; rfl
  · obtain hM | hM := le_or_gt syn code.length
    · rw [classifyPlain_corr h hM]; rfl
    · rw [classifyPlain_oor hM]; rfl

/-- DECH's payload is that of the code block, corrected in class H_CORR only. -/
theorem hammingDecode_pb (fb : List Bit) (m : Bit) :
    let code := if m then fb.take (fb.length - 1) else fb
    (hammingDecode fb m).pb =
      payload (if (hammingDecode fb m).st = .hCorr then flipBit code (syndrome code) else code) := by
  cases m with
  | true =>
    rw [hammingDecode_secded rfl rfl rfl]
    dsimp only
    rw [classifySecded_code]
    rfl
  | false =>
    rw [hammingDecode_plain rfl rfl]
    dsimp only
    rw [classifyPlain_code]
    rfl

/-- Settles O39: the parity positions are those with `ispow2`, bitlen(M) of them, and DECH's payload is that of the
verdict's code block (`hammingDecode_pb`). -/
theorem payloadIsTheDataBits : Obligations.PayloadIsTheDataBits := by
  refine ⟨fun code => ⟨payload_eq_filter_not_mem code, payload_length code⟩,
    fun code => ⟨payload_eq_nil, ?_, ?_, ?_⟩, fun s t m h => ⟨fun hc => ?_, fun hc => ?_⟩⟩
  · rintro (h | h) <;> rw [payload_length, h] <;> decide
  · exact fun h => by rw [payload_length, h]; decide
  · exact fun h => by rw [payload_length, h]; decide
  · rw [exec_dech_result h, hammingResult_of_clean hc]
    exact hammingDecode_pb s.frame.fb m
  · obtain ⟨st, -, hst⟩ := hammingResult_of_not_clean hc m
    rw [exec_dech_result h, hst]
    rfl

/-! ### Decodes are pure and idempotent (41_hamming.md R93; 42_fletcher.md R110) -/

/-- A decode answers the STATUS view of the result it writes. -/
theorem exec_decode_response {i : Instr} {s t : State} (hi : decodes i = true) (h : exec i s = .next t) :
    t.responses = s.responses ++ [okWord ((statusView t.result).setWidth 25)] := by
  obtain ⟨m, rfl⟩ | rfl := decodes_eq_true_iff.mp hi
  all_goals
    obtain rfl := Host.Outcome.next.inj h
    rfl

/-- Decodes that write one result answer one word. -/
theorem exec_decode_getLast?_congr {i i' : Instr} {s s' t t' : State} (hi : decodes i = true)
    (hi' : decodes i' = true) (h : exec i s = .next t) (h' : exec i' s' = .next t') (hr : t.result = t'.result) :
    t.responses.getLast? = t'.responses.getLast? := by
  rw [exec_decode_response hi h, exec_decode_response hi' h', hr, List.getLast?_concat, List.getLast?_concat]

/-- Settles O40: the result of a decode is a function of the frame, which a decode leaves, and the response a function of
the result. -/
theorem decodesArePureAndIdempotent : Obligations.DecodesArePureAndIdempotent := by
  intro s i j hi hj
  obtain ⟨t, -, ht, -⟩ := exec_answers i s
  obtain ⟨u, -, hu, -⟩ := exec_answers j t
  obtain ⟨v, -, hv, -⟩ := exec_answers j s
  have htf : t.frame = s.frame := exec_decode_frame hi ht
  have huv : u.result = v.result := exec_decode_result_congr hj htf hu hv
  refine ⟨t, u, v, ht, hu, hv, htf, (exec_decode_frame hj hu).trans htf, huv,
    exec_decode_getLast?_congr hj hj hu hv huv, ?_⟩
  rintro rfl
  have hut : u.result = t.result := exec_decode_result_congr hi htf hu ht
  exact ⟨hut, exec_decode_getLast?_congr hi hi hu ht hut⟩

end Sys2Proof.Machine

/-! SUPPORT. The Fletcher family: a field bit by bit, the data bytes, the two accumulators, what DECF writes on a frame
of at least 16 bits, and the proofs of the statements on them. -/

namespace Sys2Proof.Machine

/-! ### A field bit by bit (20_memory.md R37) -/

/-- One more position shifts the field up and comes in as its least significant bit. -/
theorem fieldValue_succ (bits : List Bit) (a w : Nat) :
    fieldValue bits a (w + 1) = Nat.bit (bitAt bits (a + w)) (fieldValue bits a w) := by
  have hshift : ∀ k ∈ List.range w, (bitAt bits (a + k)).toNat <<< (w - k) =
      2 * ((bitAt bits (a + k)).toNat <<< (w - 1 - k)) := by
    intro k hk
    have hexp : w - k = w - 1 - k + 1 := by have := List.mem_range.mp hk; omega
    rw [hexp, Nat.shiftLeft_succ]
  rw [Nat.bit_val, fieldValue, fieldValue, List.range_succ, List.map_append, List.sum_append,
    Nat.add_sub_cancel, List.map_congr_left hshift, List.sum_map_mul_left]
  simp

theorem fieldValue_lt (bits : List Bit) (a w : Nat) : fieldValue bits a w < 2 ^ w := by
  induction w with
  | zero => simp [fieldValue]
  | succ w ih =>
    have hbit := Bool.toNat_lt (bitAt bits (a + w))
    rw [fieldValue_succ, Nat.bit_val]
    omega

/-- The first position of a field is its most significant bit. -/
theorem testBit_fieldValue (bits : List Bit) (a : Nat) {k w : Nat} (h : k < w) :
    (fieldValue bits a w).testBit (w - 1 - k) = bitAt bits (a + k) := by
  induction w with
  | zero => exact absurd h (Nat.not_lt_zero k)
  | succ w ih =>
    rw [fieldValue_succ, Nat.add_sub_cancel]
    obtain hk | rfl := Nat.lt_succ_iff_lt_or_eq.mp h
    · have hexp : w - k = w - 1 - k + 1 := by omega
      rw [hexp, Nat.testBit_bit_succ, ih hk]
    · rw [Nat.sub_self, Nat.testBit_bit_zero]

/-! ### The received checksum (42_fletcher.md R103) -/

theorem receivedChecksum_lt (fb : List Bit) : receivedChecksum fb < 2 ^ 16 := fieldValue_lt _ _ _

/-- Settles O46: the received checksum is a field of 16 positions. -/
theorem receivedChecksumIsBigEndian : Obligations.ReceivedChecksumIsBigEndian := fun fb _ =>
  ⟨receivedChecksum_lt fb, fun _ hk => testBit_fieldValue fb (fb.length - 15) hk⟩

/-! ### The data bytes (42_fletcher.md R104) -/

@[simp] theorem dataBytes_length (data : List Bit) : (dataBytes data).length = (data.length + 7) / 8 := by
  simp [dataBytes]

/-- Byte t is the field of eight positions that starts at 8t + 1. -/
theorem eq_fieldValue_of_dataBytes_getElem? {data : List Bit} {t b : Nat} (h : (dataBytes data)[t]? = some b) :
    b = fieldValue data (8 * t + 1) 8 := by
  obtain ⟨ht, hb⟩ := List.getElem?_eq_some_iff.mp h
  simpa [dataBytes] using hb.symm

/-- Settles O47: each byte is a field of eight positions, and a position beyond the data reads 0. -/
theorem dataBytesAreMostSignificantFirst : Obligations.DataBytesAreMostSignificantFirst := by
  refine fun data => ⟨?_, fun t b h => ?_⟩
  · rw [dataBytes_length]
    split <;> omega
  · rw [eq_fieldValue_of_dataBytes_getElem? h]
    refine ⟨fieldValue_lt _ _ _, fun k hk => ?_⟩
    have hbit : (fieldValue data (8 * t + 1) 8).testBit (7 - k) = bitAt data (8 * t + k + 1) := by
      rw [Nat.add_right_comm]
      exact testBit_fieldValue data (8 * t + 1) hk
    rw [hbit]
    split
    · rfl
    · next hpast => exact bitAt_of_length_lt (Nat.lt_of_not_le hpast)

/-! ### The accumulators (42_fletcher.md R105, R106) -/

theorem sums_concat (bytes : List Nat) (b : Nat) : sums (bytes ++ [b]) = fletcherStep (sums bytes) b :=
  List.foldl_concat ..

/-- Neither accumulator ever holds 255. -/
theorem sums_le (bytes : List Nat) : (sums bytes).s1 ≤ 254 ∧ (sums bytes).s2 ≤ 254 := by
  induction bytes using List.reverseRecOn with
  | nil => decide
  | append_singleton bytes b _ =>
    rw [sums_concat]
    exact ⟨Nat.le_of_lt_succ (Nat.mod_lt _ (by decide)), Nat.le_of_lt_succ (Nat.mod_lt _ (by decide))⟩

theorem sums_s1_eq_sum_mod (bytes : List Nat) : (sums bytes).s1 = bytes.sum % 255 := by
  induction bytes using List.reverseRecOn with
  | nil => rfl
  | append_singleton bytes b ih =>
    rw [sums_concat, List.sum_append, List.sum_singleton, ← Nat.mod_add_mod, ← ih]
    rfl

/-- Up to twice the modulus one conditional subtraction is the reduction. -/
theorem mod_fmod_of_le {x : Nat} (h : x ≤ 509) : x % fmod = if x ≤ 254 then x else x - 255 := by
  rw [fmod]
  split <;> omega

/-- Settles O48: the bounds of `sums_le` keep both sums of a step where `mod_fmod_of_le` applies. -/
theorem accumulatorsAreExactModulo255 : Obligations.AccumulatorsAreExactModulo255 := by
  refine ⟨fun bytes => and_assoc.mp ⟨sums_le bytes, sums_s1_eq_sum_mod bytes⟩, ?_, rfl⟩
  intro bytes b hb a x s1 y
  obtain ⟨ha1, ha2⟩ : a.s1 ≤ 254 ∧ a.s2 ≤ 254 := sums_le bytes
  have hx : x ≤ 509 := Nat.add_le_add ha1 hb
  have hs1 : x % fmod = s1 := mod_fmod_of_le hx
  have hs1le : s1 ≤ 254 := hs1 ▸ Nat.le_of_lt_succ (Nat.mod_lt x (by decide))
  have hy : y ≤ 508 := Nat.add_le_add ha2 hs1le
  have hs2 : (a.s2 + x % fmod) % fmod = if y ≤ 254 then y else y - 255 := by
    rw [hs1]
    exact mod_fmod_of_le (hy.trans (by decide))
  refine ⟨?_, hx, hy, fun h255 => ?_⟩
  · rw [sums_concat]
    exact congrArg₂ Sums.mk hs1 hs2
  · rw [← hs1, show x = a.s1 + 255 from congrArg (a.s1 + ·) h255]
    exact (Nat.add_mod_right a.s1 255).trans (Nat.mod_eq_of_lt (Nat.lt_succ_of_le ha1))

/-! ### What DECF writes and answers (42_fletcher.md R107 to R111) -/

/-- The calculated checksum as a number, `(S2 << 8) + S1` with the accumulators of the data bytes (R107). -/
def calculatedChecksum (fb : List Bit) : Nat :=
  let a := sums (dataBytes (dataBits fb))
  a.s2 * 2 ^ 8 + a.s1

/-- The accumulators fit their registers, so the register view holds the calculated checksum without wrapping. -/
theorem calculated_fletcherSums_toNat (fb : List Bit) :
    (calculated (fletcherSums fb)).toNat = calculatedChecksum fb := by
  obtain ⟨h1, h2⟩ := sums_le (dataBytes (dataBits fb))
  simp only [calculated, calculatedChecksum, fletcherSums, BitVec.toNat_add, BitVec.toNat_shiftLeft,
    BitVec.toNat_setWidth, BitVec.toNat_ofNat, Nat.shiftLeft_eq]
  omega

/-- The comparison of the two 16-bit registers is the comparison of the two checksums as numbers. -/
theorem calculated_eq_rxck_iff (fb : List Bit) :
    calculated (fletcherSums fb) = (fletcherSums fb).rxck ↔ calculatedChecksum fb = receivedChecksum fb := by
  have hrxck : (fletcherSums fb).rxck.toNat = receivedChecksum fb := by
    rw [fletcherSums, BitVec.toNat_ofNat, Nat.mod_eq_of_lt (receivedChecksum_lt fb)]
  rw [← BitVec.toNat_inj, calculated_fletcherSums_toNat, hrxck]

theorem fletcherDecode_of_match {fb : List Bit} (h : calculatedChecksum fb = receivedChecksum fb) :
    fletcherDecode fb = { fletcherSums fb with st := .fOk, pb := dataBits fb } :=
  if_pos ((calculated_eq_rxck_iff fb).mpr h)

theorem fletcherDecode_of_mismatch {fb : List Bit} (h : calculatedChecksum fb ≠ receivedChecksum fb) :
    fletcherDecode fb = { fletcherSums fb with st := .fMismatch } :=
  if_neg (mt (calculated_eq_rxck_iff fb).mp h)

theorem fletcherResult_of_long {f : Frame} (hinv : f.inv = false) (hovf : f.ovf = false) (hlen : 16 ≤ f.fb.length) :
    fletcherResult f = fletcherDecode f.fb := by
  simp [fletcherResult, hinv, hovf, Frame.len, Nat.not_lt.mpr hlen]

/-- On a frame that passes the pre-checks DECF writes the decode's result and answers its STATUS view. -/
theorem exec_decf_of_long {s : State} {r : Result} (hinv : s.frame.inv = false) (hovf : s.frame.ovf = false)
    (hlen : 16 ≤ s.frame.fb.length) (hr : fletcherDecode s.frame.fb = r) :
    exec .decf s = .next { s with
      result := r
      responses := s.responses ++ [okWord ((statusView r).setWidth 25)] } := by
  rw [← hr, ← fletcherResult_of_long hinv hovf hlen]
  rfl

/-- Settles O45: the two outcomes of the comparison, and an operand is a reserved word. -/
theorem decfVerifiesTheChecksum : Obligations.DecfVerifiesTheChecksum := by
  refine ⟨by decide, fun s hinv hovf hlen => ?_,
    fun _ hop harg => decode_of_reservedWord (.inl ⟨by simp [hop], harg⟩)⟩
  intro fb data a matched
  by_cases h : matched
  · simp only [if_pos h]
    exact exec_decf_of_long hinv hovf hlen (fletcherDecode_of_match h)
  · simp only [if_neg h]
    exact exec_decf_of_long hinv hovf hlen (fletcherDecode_of_mismatch h)

end Sys2Proof.Machine

/-! SUPPORT. The read-out family: the command word of a read, what a read answers and that it leaves the block alone,
the register views as numbers, and the proofs of the statements on the reads, on RDS and on RDF. -/

namespace Sys2Proof.Machine

/-! ### Command words of reads (30_encoding.md R50, R51) -/

/-- A command word as a number: the opcode over the operand field. -/
theorem encode_eq_ofNat {i : Instr} {op : Nat} (o : Opcode) (ho : i.opcode = o) (hop : o.byte.toNat <<< 24 = op) :
    encode i = BitVec.ofNat 32 (op + i.arg.toNat) := by
  subst ho hop
  apply BitVec.eq_of_toNat_eq
  rw [encode, BitVec.toNat_append, ← Nat.shiftLeft_add_eq_or_of_lt i.arg.isLt, BitVec.toNat_ofNat,
    Nat.shiftLeft_eq]
  omega

theorem wordOp_encode_mem_iff_reads {i : Instr} :
    wordOp (encode i) ∈ [0x20, 0x21, 0x22, 0x23] ↔ reads i = true := by
  rw [encode, wordOp_append]
  cases i <;> simp [Instr.opcode, Opcode.byte, reads]

/-- A word with the opcode of a read passes the first two tests: no operand bit of a read is reserved. -/
theorem exists_reads_of_wordOp_mem {w : Word} (h : wordOp w ∈ [0x20, 0x21, 0x22, 0x23]) :
    ∃ i : Instr, decode w = .ok i ∧ reads i = true := by
  have hlegal : ¬ IllegalWord w := fun hi => hi (List.Sublist.subset (by decide) h)
  have hdisj : ∀ n ∈ [0x00, 0x01, 0x02, 0x03, 0x04, 0x10, 0x11], n ∉ [0x20, 0x21, 0x22, 0x23] := by decide
  obtain ⟨i, hd⟩ := exists_decode_eq_ok hlegal fun hr => hdisj _ (wordOp_of_reservedWord hr) h
  obtain ⟨-, rfl⟩ := decode_eq_ok_iff.mp hd
  exact ⟨i, hd, wordOp_encode_mem_iff_reads.mp h⟩

/-! ### Reads write nothing (43_readout.md R113) -/

theorem Effect.eq_of_nop_or_reads {i : Instr} {s u : State} (h : i = .nop ∨ reads i = true) (he : Effect i s u) :
    u = s := by
  obtain ⟨hl, hd⟩ := nop_or_reads_iff.mp h
  cases he with
  | keep | reject => rfl
  | clear | mark => cases hl
  | push hp => exact absurd (loads_of_pushedBits hp) (by simp [hl])
  | hamming | fletcher => cases hd

/-- NOP and the reads deliver one word, the same whatever was answered before, and write nothing else. -/
theorem exec_nop_or_reads {i : Instr} (h : i = .nop ∨ reads i = true) (s : State) :
    ∃ r : Word, ∀ rs : List Word,
      exec i { s with responses := rs } = .next { s with responses := rs ++ [r] } := by
  obtain ⟨f, res, r, hexec⟩ := exec_of_block i s
  obtain ⟨u, x, hu, he⟩ := exec_effect i s
  rw [he.eq_of_nop_or_reads h, hexec s.inputs s.responses] at hu
  obtain rfl : f = s.frame := congrArg State.frame (Host.Outcome.next.inj hu)
  obtain rfl : res = s.result := congrArg State.result (Host.Outcome.next.inj hu)
  exact ⟨r, hexec s.inputs⟩

/-- A word that decodes to NOP or a read, or is rejected, writes nothing but its response. -/
theorem runCommand_of_nop_or_reads {w : Word} (h : ∀ j, decode w = .ok j → j = .nop ∨ reads j = true)
    (s : State) : ∃ r : Word, runCommand w s = .next (s.respond r) := by
  cases hd : decode w with
  | ok j =>
    obtain ⟨r, hr⟩ := exec_nop_or_reads (h j hd) s
    exact ⟨r, (runCommand_of_ok hd s).trans (hr s.responses)⟩
  | error c => exact ⟨rejectWord c, runCommand_of_error hd s⟩

/-- A run of such words writes nothing but its responses. -/
theorem runWords_of_nop_or_reads {ws : List Word}
    (h : ∀ w ∈ ws, ∀ j, decode w = .ok j → j = .nop ∨ reads j = true) (s : State) :
    ∃ rs : List Word, runWords ws s = .next { s with responses := rs } := by
  induction ws generalizing s with
  | nil => exact ⟨s.responses, rfl⟩
  | cons w ws ih =>
    obtain ⟨hw, hws⟩ := List.forall_mem_cons.mp h
    obtain ⟨r, hr⟩ := runCommand_of_nop_or_reads hw s
    obtain ⟨rs, hrs⟩ := ih hws (s.respond r)
    exact ⟨rs, (runWords_cons hr ws).trans hrs⟩

/-! ### Indices that address nothing -/

/-- The rejection of a read whose index addresses nothing. -/
theorem exec_eq_of_indexOutOfRange {i : Instr} {s : State} (h : IndexOutOfRange s i) :
    exec i s = .next { s with responses := s.responses ++ [0x83000000#32] } := by
  rw [exec_of_indexOutOfRange h, reject_eq, rejectWord_eq]
  rfl

theorem runCommand_of_outOfRangeWord {w : Word} {s : State} (h : OutOfRangeWord w s) :
    runCommand w s = .next { s with responses := s.responses ++ [0x83000000#32] } := by
  obtain ⟨i, hd, -⟩ := exists_reads_of_wordOp_mem (wordOp_of_outOfRangeWord h)
  rw [runCommand_of_ok hd]
  obtain ⟨-, rfl⟩ := decode_eq_ok_iff.mp hd
  exact exec_eq_of_indexOutOfRange (outOfRangeWord_encode_iff.mp h)

/-- Settles O56: `exec_nop_or_reads` names a read's word once for all earlier responses, and the words before its
repetition change nothing but responses; the two clauses on words are the lemmas on tests 3 and 2. -/
theorem readsChangeNothing : Obligations.ReadsChangeNothing := by
  refine ⟨fun i s hi => ?_, fun s w => runCommand_of_outOfRangeWord, fun w => exists_reads_of_wordOp_mem⟩
  obtain ⟨r, hr⟩ := exec_nop_or_reads (.inr hi) s
  refine ⟨r, hr s.responses, fun ws hws => ?_⟩
  obtain ⟨rs, hrs⟩ := runWords_of_nop_or_reads hws s
  exact ⟨_, hrs, rfl, rfl, hr rs⟩

/-! ### The register views as numbers (10_state.md R17 to R32) -/

theorem lengthView_toNat (n : Nat) : (lengthView n).toNat = n % 2 ^ 24 := BitVec.toNat_ofNat n 24

/-- Two flags side by side, as FLAGS and PAR hold them. -/
theorem bitView_add_shiftLeft_toNat (a b : Bit) : (bitView a + (bitView b <<< 1)).toNat = a.toNat + b.toNat * 2 := by
  cases a <;> cases b <;> rfl

theorem bitView_toNat (b : Bit) : (bitView b).toNat = b.toNat := by cases b <;> rfl

theorem statusView_toNat (r : Result) :
    (statusView r).toNat = r.st.code.toNat + r.alg.toNat * 2 ^ 4 + r.mode.toNat * 2 ^ 5 := by
  have hst := r.st.code.isLt
  have halg := Bool.toNat_le r.alg
  have hmode := Bool.toNat_le r.mode
  simp only [statusView, BitVec.toNat_add, BitVec.toNat_shiftLeft, BitVec.toNat_setWidth, bitView_toNat,
    Nat.shiftLeft_eq]
  omega

theorem calcView_toNat (r : Result) : (calcView r).toNat = r.s2.toNat * 2 ^ 8 + r.s1.toNat := by
  have h1 := r.s1.isLt
  have h2 := r.s2.isLt
  simp only [calcView, calculated, BitVec.toNat_add, BitVec.toNat_shiftLeft, BitVec.toNat_setWidth, Nat.shiftLeft_eq]
  omega

/-- In a clear result every register of the result state reads 0 (10_state.md R22). -/
theorem view_of_clear {s : State} (h : s.result = Result.clear) {reg : Register}
    (hreg : reg ∉ [Register.cap, .len, .flags]) : s.view reg = 0 := by
  cases reg with
  | cap | len | flags => simp at hreg
  | _ => rw [State.view, h]; rfl

/-! ### RDS (43_readout.md R114) -/

/-- A 24-bit datum as a response word. -/
theorem okData_eq_ofNat (s : State) (d : BitVec 24) :
    s.okData d = .next { s with responses := s.responses ++ [BitVec.ofNat 32 d.toNat] } := by
  rw [okData_eq, okWord_setWidth, BitVec.ofNat_toNat]
  rfl

/-- An index answers the view of the register it names. -/
theorem exec_rds_of_view {s : State} {r : Pos} {reg : Register} {v : Nat} (hr : registerOf r = some reg)
    (hv : (s.view reg).toNat = v) :
    exec (.rds r) s = .next { s with responses := s.responses ++ [BitVec.ofNat 32 v] } := by
  rw [exec, execRds, hr, ← hv]
  exact okData_eq_ofNat s _

/-- The registers outside the result state are those below index 3 (10_state.md R32). -/
theorem not_mem_of_registerOf {r : Pos} {reg : Register} (h : registerOf r = some reg) (h3 : 3 ≤ r.toNat) :
    reg ∉ [Register.cap, .len, .flags] := by
  unfold registerOf at h
  split at h <;> cases h <;> simp_all

/-- With a clear result the indices 3 to 10 answer 0. -/
theorem exec_rds_of_clear {s : State} (h : s.result = Result.clear) {r : Pos} (h3 : 3 ≤ r.toNat)
    (h10 : r.toNat ≤ 10) :
    exec (.rds r) s = .next { s with responses := s.responses ++ [BitVec.ofNat 32 0] } := by
  obtain ⟨reg, hr⟩ := Option.ne_none_iff_exists'.mp (mt registerOf_eq_none.mp (Nat.not_lt.mpr h10))
  exact exec_rds_of_view hr (congrArg BitVec.toNat (view_of_clear h (not_mem_of_registerOf hr h3)))

/-- Settles O52: each index answers its register's view, as a number; with ST = 0 all of those from 3 on are 0, and an
index above 10 addresses nothing. -/
theorem rdsReadsEveryRegister : Obligations.RdsReadsEveryRegister := by
  refine ⟨fun r => encode_eq_ofNat .rds rfl (by decide), fun s => ?_⟩
  have hcap : (s.view .cap).toNat = s.params.nmax :=
    (lengthView_toNat _).trans (Nat.mod_eq_of_lt (nmax_lt s.params))
  have hrxck : (s.view .rxck).toNat = s.result.rxck.toNat := BitVec.toNat_setWidth_of_le (by decide)
  exact ⟨exec_rds_of_view (reg := .cap) rfl hcap,
    exec_rds_of_view (reg := .len) rfl (lengthView_toNat _),
    exec_rds_of_view (reg := .flags) rfl (bitView_add_shiftLeft_toNat _ _),
    exec_rds_of_view (reg := .status) rfl (statusView_toNat _),
    exec_rds_of_view (reg := .syn) rfl rfl,
    exec_rds_of_view (reg := .par) rfl (bitView_add_shiftLeft_toNat _ _),
    exec_rds_of_view (reg := .cpos) rfl rfl,
    exec_rds_of_view (reg := .plen) rfl (lengthView_toNat _),
    exec_rds_of_view (reg := .elen) rfl (lengthView_toNat _),
    exec_rds_of_view (reg := .calc) rfl (calcView_toNat _),
    exec_rds_of_view (reg := .rxck) rfl hrxck,
    fun hclear hst _ h3 h10 => exec_rds_of_clear (hclear hst) h3 h10,
    fun r => exec_eq_of_indexOutOfRange (i := .rds r)⟩

/-! ### RDF (43_readout.md R116) -/

/-- A position operand in range names the element one index below it. -/
theorem frameBit_of_getElem? {f : Frame} {p : Pos} {b : Bit} (hp : 1 ≤ p.toNat) (hb : f.fb[p.toNat - 1]? = some b) :
    frameBit f p = some b := by
  obtain ⟨hlt, hget⟩ := List.getElem?_eq_some_iff.mp hb
  have hlen : p.toNat ≤ f.fb.length := by omega
  rw [frameBit_eq_some hp hlen, bitAt_eq_getElem hp hlen, hget]

theorem exec_rdf_of_frameBit {s : State} {p : Pos} {b : Bit} (h : frameBit s.frame p = some b) :
    exec (.rdf p) s = .next { s with responses := s.responses ++ [BitVec.ofNat 32 b.toNat] } := by
  rw [exec, execRdf, h, ← bitView_toNat]
  exact okData_eq_ofNat s _

/-- What RDF answers is a function of the frame: no result state, and so no correction, is visible in it. -/
theorem exec_rdf_of_frame (p : Pos) (f : Frame) :
    ∃ r : Word, ∀ s : State, s.frame = f → exec (.rdf p) s = .next (s.respond r) := by
  cases hb : frameBit f p with
  | some b => exact ⟨_, fun s hs => exec_rdf_of_frameBit (hs ▸ hb)⟩
  | none => exact ⟨_, fun s hs => exec_eq_of_indexOutOfRange (i := .rdf p) (frameBit_eq_none.mp (hs ▸ hb))⟩

/-- Settles O53: the element at a position in range, the rejection of every other, and `exec_rdf_of_frame` with the
frame that a decode leaves. -/
theorem rdfReadsTheReceivedBit : Obligations.RdfReadsTheReceivedBit := by
  refine ⟨fun p => encode_eq_ofNat .rdf rfl (by decide),
    fun s p => ⟨fun b hp hb => ?_, fun hout => ?_, fun i t u v hi ht hu hv => ?_⟩⟩
  · have hpos : p.toNat ≠ 0 := fun h0 => hp (BitVec.eq_of_toNat_eq h0)
    exact exec_rdf_of_frameBit (frameBit_of_getElem? (Nat.one_le_iff_ne_zero.mpr hpos) hb)
  · exact exec_eq_of_indexOutOfRange (i := .rdf p) (hout.imp_left (congrArg BitVec.toNat))
  · obtain ⟨r, hr⟩ := exec_rdf_of_frame p s.frame
    obtain rfl := Host.Outcome.next.inj (hu.symm.trans (hr t (exec_decode_frame hi ht)))
    obtain rfl := Host.Outcome.next.inj (hv.symm.trans (hr s rfl))
    rw [respond_responses, respond_responses, List.getLast?_concat, List.getLast?_concat]

end Sys2Proof.Machine

/-! SUPPORT. The exceptions family: a command executes or is rejected, what a decode writes on a frame that fails a
pre-check, the statuses each decode can end in, and the proofs of the statements on them. -/

namespace Sys2Proof.Machine

/-! ### Every command is answered (60_exceptions.md R121) -/

/-- A command word executes and answers data, or is rejected; the host's later actions and the earlier responses are
left alone. -/
theorem runCommand_ok_or_reject (w : Word) (s : State) :
    (∃ (u : State) (d : BitVec 25), runCommand w s = u.ok d ∧ u.inputs = s.inputs ∧ u.responses = s.responses) ∨
    ∃ c : CmdError, runCommand w s = s.reject c := by
  cases hd : decode w with
  | error c => exact .inr ⟨c, runCommand_of_error hd s⟩
  | ok i =>
    rw [runCommand_of_ok hd]
    by_cases h : IndexOutOfRange s i
    · exact .inr ⟨.range, exec_of_indexOutOfRange h⟩
    · obtain ⟨hw, -⟩ := decode_eq_ok_iff.mp hd
      obtain ⟨u, d, hu, hresp⟩ := exec_of_not_indexOutOfRange hw h
      obtain ⟨t, -, ht, -, hinputs, -⟩ := exec_answers i s
      obtain rfl := Host.Outcome.next.inj (ht.symm.trans hu)
      exact .inl ⟨u, d, hu, hinputs, hresp⟩

/-- A response of data is below 2^25: ERR and the bits beside the data are 0 (30_encoding.md R56). -/
theorem okWord_toNat_lt (d : BitVec 25) : (okWord d).toNat < 0x02000000 := by
  rw [okWord_toNat]
  exact d.isLt

theorem rejectWord_mem (c : CmdError) : rejectWord c ∈ [0x81000000#32, 0x82000000#32, 0x83000000#32] := by
  cases c <;> decide

/-- Settles O8: an idle host and a reset answer nothing, a command as `runCommand_ok_or_reject` says. -/
theorem everyStepAnswers : Obligations.EveryStepAnswers := by
  intro s
  cases hin : s.inputs with
  | nil => exact ⟨s, step_of_nil hin, hin, nofun, fun _ => rfl⟩
  | cons a rest =>
    rw [step_of_cons hin]
    cases a with
    | idle | reset | resetDuring => exact ⟨_, rfl, rfl, nofun, fun _ => rfl⟩
    | command w =>
      obtain ⟨u, d, hu, hinputs, hresp⟩ | ⟨c, hc⟩ := runCommand_ok_or_reject w (s.withInputs rest)
      · refine ⟨u.respond (okWord d), hu, hinputs, fun _ _ _ => ?_, fun h => absurd rfl (h w rest)⟩
        exact ⟨okWord d, by rw [respond_responses, hresp, withInputs_responses], .inl (okWord_toNat_lt d)⟩
      · refine ⟨(s.withInputs rest).respond (rejectWord c), hc, rfl, fun _ _ _ => ?_,
          fun h => absurd rfl (h w rest)⟩
        exact ⟨rejectWord c, rfl, .inr ⟨rejectWord_mem c, rfl, rfl⟩⟩

/-! ### The pre-checks of the decodes (60_exceptions.md R126 to R130) -/

theorem hammingResult_of_empty {f : Frame} (hinv : f.inv = false) (hovf : f.ovf = false) (hlen : f.fb.length = 0)
    (m : Bit) : hammingResult f m = Result.failure .eEmpty false m := by
  simp [hammingResult, hinv, hovf, Frame.len, hlen]

theorem fletcherResult_of_short {f : Frame} (hinv : f.inv = false) (hovf : f.ovf = false) (hlen : f.fb.length < 16) :
    fletcherResult f = Result.failure .eShort true false := by
  simp [fletcherResult, hinv, hovf, Frame.len, hlen]

/-- DECH writes the result of the frame and answers its STATUS view. -/
theorem exec_dech_of_result {s : State} {m : Bit} {r : Result} {x : Word} (hr : hammingResult s.frame m = r)
    (hx : okWord ((statusView r).setWidth 25) = x) :
    exec (.dech m) s = .next { s with result := r, responses := s.responses ++ [x] } := by
  subst hr hx
  rfl

/-- DECF writes the result of the frame and answers its STATUS view. -/
theorem exec_decf_of_result {s : State} {r : Result} {x : Word} (hr : fletcherResult s.frame = r)
    (hx : okWord ((statusView r).setWidth 25) = x) :
    exec .decf s = .next { s with result := r, responses := s.responses ++ [x] } := by
  subst hr hx
  rfl

/-! ### The statuses a decode can end in (10_state.md R21) -/

theorem classifySecded_st_mem (code : List Bit) (gp : Bit) (N syn : Nat) (gpc : Bit) :
    (classifySecded code gp N syn gpc).st ∈ [Status.hNoErr, .hGpErr, .hCorr, .hDbl, .hOor] := by
  by_cases h : syn = 0
  · subst h
    cases gpc <;> simp [classifySecded_noErr, classifySecded_gpErr, verdictNoErr, verdictGpErr]
  · cases gpc with
    | false => simp [classifySecded_dbl h, verdictDbl]
    | true =>
      obtain hM | hM := le_or_gt syn code.length
      · simp [classifySecded_corr h hM, verdictCorr]
      · simp [classifySecded_oor hM, verdictOor]

theorem classifyPlain_st_mem (code : List Bit) (syn : Nat) :
    (classifyPlain code syn).st ∈ [Status.hNoErr, .hCorr, .hOor] := by
  by_cases h : syn = 0
  · simp [classifyPlain_noErr h, verdictNoErr]
  · obtain hM | hM := le_or_gt syn code.length
    · simp [classifyPlain_corr h hM, verdictCorr]
    · simp [classifyPlain_oor hM, verdictOor]

theorem hammingDecode_st_mem (fb : List Bit) (m : Bit) :
    (hammingDecode fb m).st ∈ [Status.hNoErr, .hGpErr, .hCorr, .hDbl, .hOor] := by
  cases m with
  | true => exact classifySecded_st_mem _ _ _ _ _
  | false => exact List.Sublist.subset (by decide) (classifyPlain_st_mem fb (syndrome fb))

/-- DECH ends in one of its three failures or in one of the Hamming classes. -/
theorem hammingResult_st_mem (s : State) (m : Bit) :
    (hammingResult s.frame m).st ∈
      [Status.eInvalid, .eOvf, .eEmpty] ++ [Status.hNoErr, .hGpErr, .hCorr, .hDbl, .hOor] := by
  by_cases hc : Clean s
  · rw [hammingResult_of_clean hc]
    exact List.mem_append_right _ (hammingDecode_st_mem s.frame.fb m)
  · obtain ⟨st, hst, hr⟩ := hammingResult_of_not_clean hc m
    rw [hr]
    exact List.mem_append_left _ hst

theorem fletcherDecode_st_mem (fb : List Bit) : (fletcherDecode fb).st ∈ [Status.fOk, .fMismatch] := by
  by_cases h : calculatedChecksum fb = receivedChecksum fb
  · simp [fletcherDecode_of_match h]
  · simp [fletcherDecode_of_mismatch h]

/-- DECF ends in one of its three failures or in one of the Fletcher classes. -/
theorem fletcherResult_st_mem (f : Frame) :
    (fletcherResult f).st ∈ [Status.eInvalid, .eOvf, .eShort] ++ [Status.fOk, .fMismatch] := by
  cases hinv : f.inv with
  | true => simp [fletcherResult_of_inv hinv, Result.failure]
  | false =>
    cases hovf : f.ovf with
    | true => simp [fletcherResult_of_ovf hinv hovf, Result.failure]
    | false =>
      obtain hlen | hlen := Nat.lt_or_ge f.fb.length 16
      · simp [fletcherResult_of_short hinv hovf hlen, Result.failure]
      · rw [fletcherResult_of_long hinv hovf hlen]
        exact List.mem_append_right _ (fletcherDecode_st_mem f.fb)

theorem exec_decf_result {s t : State} (h : exec .decf s = .next t) : t.result = fletcherResult s.frame := by
  obtain rfl := Host.Outcome.next.inj h
  rfl

/-- Settles O41: each pre-check is the lemma on the result it writes, and the status that belongs to the other decode is
not among those a decode can end in. -/
theorem decodeFailuresInPriority : Obligations.DecodeFailuresInPriority := by
  intro s m
  refine ⟨fun hinv => ⟨?_, ?_⟩, fun hinv hovf => ⟨?_, ?_⟩, fun hinv hovf hlen => ?_, fun hinv hovf hlen => ?_,
    fun t h hst => ?_, fun t h hst => ?_⟩
  · exact exec_dech_of_result (hammingResult_of_inv hinv m) (by cases m <;> rfl)
  · exact exec_decf_of_result (fletcherResult_of_inv hinv) rfl
  · exact exec_dech_of_result (hammingResult_of_ovf hinv hovf m) (by cases m <;> rfl)
  · exact exec_decf_of_result (fletcherResult_of_ovf hinv hovf) rfl
  · exact exec_dech_of_result (hammingResult_of_empty hinv hovf hlen m) (by cases m <;> rfl)
  · exact exec_decf_of_result (fletcherResult_of_short hinv hovf hlen) rfl
  · have hmem := hammingResult_st_mem s m
    rw [← exec_dech_result h, hst] at hmem
    exact absurd hmem (by decide)
  · have hmem := fletcherResult_st_mem s.frame
    rw [← exec_decf_result h, hst] at hmem
    exact absurd hmem (by decide)

end Sys2Proof.Machine

/-! SUPPORT. The reset family: what the two reset actions of the host do to the block. -/

namespace Sys2Proof.Machine

/-- A step that resets the block clears it, whether the reset falls between two commands or cuts one short
(70_reset_and_hazards.md R139, R140). -/
theorem step_of_reset {s : State} {rest : List HostAction} {w : Word}
    (h : s.inputs = .reset :: rest ∨ s.inputs = .resetDuring w :: rest) :
    step s = .next (s.withInputs rest).clearBlock :=
  h.elim step_of_cons step_of_cons

/-- Settles O6: by `step_of_reset` either reset action clears the block, and the cleared block is the reset state with
the host's side of the port as it was. -/
theorem resetActionsGiveTheResetState : Obligations.ResetActionsGiveTheResetState := by
  intro s rest w h
  rw [step_of_reset h]
  rfl

end Sys2Proof.Machine

/-! SUPPORT. The other statements, on command words and steps: the round trip of the encoding, what a step keeps, runs
of words and of instructions, what every command leaves unchanged, and loading a frame. -/

namespace Sys2Proof.Machine

/-! ### The encoding and the decoder (30_encoding.md R50 to R54) -/

/-- Settles O1: by `decode_eq_ok_iff` a well-formed instruction's encoding decodes to it. -/
theorem decodeOfEncodeIsTheInstruction : Obligations.DecodeOfEncodeIsTheInstruction := fun _ hw =>
  decode_eq_ok_iff.mpr ⟨hw, rfl⟩

/-- Settles O2: by `decode_eq_ok_iff` only the encoding of a well-formed instruction decodes to it. -/
theorem acceptedWordIsItsInstructionsEncoding : Obligations.AcceptedWordIsItsInstructionsEncoding := fun _ _ =>
  decode_eq_ok_iff.mp

/-- Settles O4: each accepted word is the encoding of its instruction, and the three others fail test 1 or test 2. -/
theorem wordsOfTheSpecDecode : Obligations.WordsOfTheSpecDecode := by
  unfold Obligations.WordsOfTheSpecDecode
  simp only [decode_eq_ok_iff, decode_of_illegalWord (w := 0x05000000#32) (by decide),
    decode_of_reservedWord (w := 0x10000002#32) (by decide), decode_of_reservedWord (w := 0x04030009#32) (by decide),
    and_true]
  decide

/-! ### The step and the capacity (00_scope.md R3, R5; 10_state.md R17) -/

/-- Settles O5: a command runs on the state without it, an idle action is only taken, and with none left the state is
held. -/
theorem stepRunsTheDecodedInstruction : Obligations.StepRunsTheDecodedInstruction :=
  ⟨fun _ _ _ _ => step_of_decode_ok, fun _ _ => step_of_cons, fun _ => step_of_nil⟩

theorem perform_params {a : HostAction} {s t : State} (h : perform a s = .next t) : t.params = s.params := by
  cases a with
  | idle | reset | resetDuring =>
    obtain rfl := Host.Outcome.next.inj h
    rfl
  | command w =>
    obtain ⟨t', -, ht', hp, -, -⟩ := runCommand_answers w s
    obtain rfl := Host.Outcome.next.inj (ht'.symm.trans h)
    exact hp

/-- Of the bits a command pushes only those that fit are stored. -/
theorem exec_len_le_nmax {i : Instr} {s t : State} (hi : i ≠ .clr) (hs : Fits s) (h : exec i s = .next t) :
    t.frame.len ≤ s.params.nmax := by
  have hlen := congrArg List.length (exec_fb_ovf hi h).1
  rw [List.length_append, List.length_take] at hlen
  simp only [Fits, Frame.len] at hs ⊢
  omega

theorem perform_keeps_fits {a : HostAction} {s t : State} (hs : Fits s) (h : perform a s = .next t) : Fits t := by
  rw [Fits, perform_params h]
  obtain ⟨-, hf, -⟩ | ⟨-, hf, -⟩ | ⟨w, i, -, -, hi, he⟩ := perform_cases h
  · rw [hf]
    exact Nat.zero_le _
  · rwa [hf]
  · exact exec_len_le_nmax hi hs he

/-- Whatever every action of the host keeps, if it does not look at what the host does later, every step keeps. -/
theorem step_keeps {P : State → Prop} (hP : ∀ (s : State) (l : List HostAction), P s → P (s.withInputs l))
    (hperform : ∀ (a : HostAction) (s t : State), P s → perform a s = .next t → P t) {s t : State} (hs : P s)
    (h : step s = .next t) : P t := by
  cases hin : s.inputs with
  | nil =>
    rw [step_of_nil hin] at h
    exact Host.Outcome.next.inj h ▸ hs
  | cons a rest =>
    rw [step_of_cons hin] at h
    exact hperform a _ t (hP s rest hs) h

/-- Settles O21: parameters and capacity are kept by every action of the host, and the bounds are those of the type. -/
theorem capacityIsKept : Obligations.CapacityIsKept := by
  refine ⟨fun s t h => ⟨?_, fun hs => ?_⟩, fun p => ⟨nmax_ge p, Nat.le_sub_one_of_lt (nmax_lt p)⟩, Nat.zero_le _⟩
  · exact step_keeps (P := fun u => u.params = s.params) (fun _ _ hu => hu)
      (fun _ _ _ hu hp => (perform_params hp).trans hu) rfl h
  · exact step_keeps (P := Fits) (fun _ _ hu => hu) (fun _ _ _ => perform_keeps_fits) hs h

/-! ### What every command leaves unchanged (10_state.md R16 to R22) -/

/-- Only the loading commands change the input-side state. -/
theorem exec_frame_of_not_loads {i : Instr} {s t : State} (hl : loads i = false) (h : exec i s = .next t) :
    t.frame = s.frame := by
  obtain ⟨u, r, rfl, he⟩ := exec_cases h
  cases he with
  | keep | reject | hamming | fletcher => rfl
  | clear | mark => cases hl
  | push hp => exact absurd (loads_of_pushedBits hp) (by simp [hl])

/-- A command but CLR and a PUSHC of a bad symbol leaves INV. -/
theorem exec_inv_eq {i : Instr} {s t : State} (hi : i ≠ .clr)
    (hc : ¬ ∃ c : BitVec 8, i = .pushc c ∧ c ≠ 0x30 ∧ c ≠ 0x31) (h : exec i s = .next t) :
    t.frame.inv = s.frame.inv := by
  rw [Bool.eq_iff_iff, exec_inv_iff hi h, or_iff_left hc]

/-- Settles O25: what all commands have in common by `exec_answers`, the rest by the lemma on each part of the state. -/
theorem commandFrames : Obligations.CommandFrames := by
  intro i s t h
  obtain ⟨t', r, ht', hparams, hinputs, hresp⟩ := exec_answers i s
  obtain rfl := Host.Outcome.next.inj (ht'.symm.trans h)
  refine ⟨hparams, hinputs, ⟨r, hresp⟩, fun hl => exec_frame_of_not_loads hl h,
    fun hl hd => exec_keep_result hl hd h, ?_, ?_, ?_, ?_⟩
  · rintro b rfl
    exact exec_inv_eq (i := .pushb b) nofun nofun h
  · rintro n v rfl
    exact exec_inv_eq (i := .pushn n v) nofun nofun h
  · rintro c rfl hnil
    obtain ⟨h0, h1⟩ := pushedBits_pushc_eq_nil_iff.mp hnil
    rw [exec_pushc_frame_of_bad h0 h1 h]
    exact ⟨rfl, rfl⟩
  · rintro c rfl hne
    refine exec_inv_eq (i := .pushc c) nofun ?_ h
    rintro ⟨_, ⟨⟩, hbad⟩
    exact hne (pushedBits_pushc_eq_nil_iff.mpr hbad)

/-! ### Runs (70_reset_and_hazards.md R147) -/

/-- A run takes one step and goes on from the state that leaves. -/
theorem core_run_succ {s t : State} (h : step s = .next t) (n : Nat) :
    Sys2Proof.core.run (n + 1) s = Sys2Proof.core.run n t := by
  have hcore : Sys2Proof.core.step s = .next t := h
  simp only [Host.Core.run, hcore]

/-- The effect and the response of a word do not depend on what the host does later. -/
theorem runCommand_withInputs {w : Word} {s t : State} (h : runCommand w s = .next t) (l : List HostAction) :
    runCommand w (s.withInputs l) = .next (t.withInputs l) := by
  cases hd : decode w with
  | ok i =>
    rw [runCommand_of_ok hd] at h ⊢
    obtain ⟨f, res, x, hexec⟩ := exec_of_block i s
    obtain rfl := Host.Outcome.next.inj (h.symm.trans (hexec s.inputs s.responses))
    exact hexec l s.responses
  | error c =>
    rw [runCommand_of_error hd] at h ⊢
    obtain rfl := Host.Outcome.next.inj h
    rfl

/-- The machine run on presented words folds `runCommand` over them. -/
theorem core_run_commands (ws : List Word) (s : State) :
    Sys2Proof.core.run ws.length (s.withInputs (ws.map HostAction.command)) = runWords ws (s.withInputs []) := by
  induction ws generalizing s with
  | nil => rfl
  | cons w ws ih =>
    obtain ⟨t, -, ht, -⟩ := runCommand_answers w s
    have hstep : step (s.withInputs ((w :: ws).map HostAction.command)) =
        .next (t.withInputs (ws.map HostAction.command)) := by
      rw [step_of_cons (a := .command w) rfl]
      exact runCommand_withInputs ht _
    rw [List.length_cons, core_run_succ hstep, ih, runWords_cons (runCommand_withInputs ht [])]

/-- The words a host presents are taken from its list of actions one by one. -/
theorem core_run_of_inputs {s : State} {ws : List Word} (h : s.inputs = ws.map HostAction.command) :
    Sys2Proof.core.run ws.length s = runWords ws (s.withInputs []) := by
  rw [← core_run_commands, ← h]
  rfl

/-- A run of words answers each of them once and in order, and leaves the parameters and the host's later actions. -/
theorem runWords_answers (ws : List Word) (s : State) :
    ∃ (t : State) (rs : List Word), runWords ws s = .next t ∧ t.params = s.params ∧ t.inputs = s.inputs ∧
      rs.length = ws.length ∧ t.responses = s.responses ++ rs ∧
      ∀ (k : Nat) (w : Word), ws[k]? = some w → ∃ (u v : State) (r : Word), runWords (ws.take k) s = .next u ∧
        runCommand w u = .next v ∧ v.responses = u.responses ++ [r] ∧ rs[k]? = some r := by
  induction ws generalizing s with
  | nil => exact ⟨s, [], rfl, rfl, rfl, rfl, by simp, by simp⟩
  | cons w ws ih =>
    obtain ⟨v, r, hv, hvparams, hvinputs, hvresp⟩ := runCommand_answers w s
    obtain ⟨t, rs, ht, hparams, hinputs, hlen, hresp, hall⟩ := ih v
    refine ⟨t, r :: rs, (runWords_cons hv ws).trans ht, hparams.trans hvparams, hinputs.trans hvinputs,
      congrArg (· + 1) hlen, by rw [hresp, hvresp, List.append_assoc]; rfl, fun k w' hk => ?_⟩
    cases k with
    | zero =>
      obtain rfl : w = w' := by simpa using hk
      exact ⟨s, v, r, rfl, hv, hvresp, rfl⟩
    | succ k =>
      obtain ⟨u, v', r', hu, hv', hresp', hr'⟩ := hall k w' (by simpa using hk)
      exact ⟨u, v', r', by rw [List.take_succ_cons, runWords_cons hv, hu], hv', hresp', by simpa using hr'⟩

/-- Settles O9: the machine folds `runCommand` over the words (`core_run_of_inputs`), and that fold answers every one
(`runWords_answers`). -/
theorem runAnswersEveryCommand : Obligations.RunAnswersEveryCommand := by
  intro s ws hin
  obtain ⟨t, rs, ht, hparams, hinputs, hlen, hresp, hall⟩ := runWords_answers ws (s.withInputs [])
  exact ⟨t, rs, (core_run_of_inputs hin).trans ht, ht, hinputs, hparams, hlen, hresp, hall⟩

/-- The command words of well-formed instructions run as the instructions do. -/
theorem runWords_map_encode {is : List Instr} (h : ∀ i ∈ is, i.wellFormed = true) (s : State) :
    runWords (is.map encode) s = runAll is s := by
  induction is generalizing s with
  | nil => rfl
  | cons i is ih =>
    obtain ⟨hi, his⟩ := List.forall_mem_cons.mp h
    obtain ⟨t, -, ht, -⟩ := exec_answers i s
    have hrun : runCommand (encode i) s = .next t :=
      (runCommand_of_ok (decode_eq_ok_iff.mpr ⟨hi, rfl⟩) s).trans ht
    rw [List.map_cons, runWords_cons hrun, ih his, runAll_cons ht]

/-- Settles O10: a program is its instructions' words, and these run as the instructions do (`runWords_map_encode`). -/
theorem programIsFoldedInstructionByInstruction : Obligations.ProgramIsFoldedInstructionByInstruction := by
  intro s is hwf hin
  have hwords : s.inputs = (is.map encode).map HostAction.command := by
    rw [hin, program, List.map_map]
    rfl
  have hrun := core_run_of_inputs hwords
  rw [List.length_map, runWords_map_encode hwf] at hrun
  exact hrun

/-! ### Loading a frame (40_frame_load.md, properties of the loading commands) -/

/-- A program runs its first part, then its second part from the state that leaves. -/
theorem runAll_append {is : List Instr} {s t : State} (h : runAll is s = .next t) (js : List Instr) :
    runAll (is ++ js) s = runAll js t := by
  induction is generalizing s with
  | nil =>
    obtain rfl := Host.Outcome.next.inj h
    rfl
  | cons i is ih =>
    obtain ⟨u, -, hu, -⟩ := exec_answers i s
    rw [runAll_cons hu] at h
    rw [List.cons_append, runAll_cons hu, ih h]

/-- Bits pushed after CLR stand in the buffer as far as they fit, and OVF says whether one did not. -/
theorem runAll_clr_map_pushb (bits : List Bit) (s : State) :
    ∃ t : State, runAll (.clr :: bits.map Instr.pushb) s = .next t ∧ t.result = Result.clear ∧
      t.frame = { fb := bits.take s.params.nmax, inv := false, ovf := decide (s.params.nmax < bits.length) } := by
  let s₀ := s.clearBlock.respond (okWord 0)
  have hclr : exec .clr s = .next s₀ := exec_clr s
  rw [runAll_cons hclr]
  by_cases hb : bits = []
  · subst hb
    exact ⟨s₀, rfl, rfl, by simp [s₀, Frame.empty]⟩
  · obtain ⟨rs, hrun⟩ := runAll_map_pushb hb s₀
    rw [answerLen_eq_next] at hrun
    exact ⟨_, hrun, by simp, by simp [appendAll_frame, s₀, Frame.empty, Frame.len, hb]⟩

/-- Pushing the characters of bits is pushing the bits (40_frame_load.md R69). -/
theorem runAll_map_pushc_char (bits : List Bit) (s : State) :
    runAll ((bits.map fun b => if b then 0x31 else 0x30).map Instr.pushc) s = runAll (bits.map Instr.pushb) s := by
  induction bits generalizing s with
  | nil => rfl
  | cons b bits ih =>
    obtain ⟨t, -, ht, -⟩ := exec_answers (.pushb b) s
    have hchar : exec (.pushc (if b then 0x31 else 0x30)) s = .next t := (exec_pushc_char b s).trans ht
    rw [List.map_cons, List.map_cons, List.map_cons, runAll_cons hchar, runAll_cons ht, ih]

/-- Settles O16: the bits pushed after CLR all fit (`runAll_clr_map_pushb`), and their characters are pushed as they
are. -/
theorem frameIsLoadedAsReceived : Obligations.FrameIsLoadedAsReceived := by
  intro s bits hfit
  obtain ⟨t, ht, hresult, hframe⟩ := runAll_clr_map_pushb bits s
  rw [List.take_of_length_le hfit, decide_eq_false (Nat.not_lt.mpr hfit)] at hframe
  refine ⟨⟨t, ht, hframe, hresult⟩, t, ?_, hframe, hresult⟩
  rw [runAll_cons (exec_clr s)] at ht ⊢
  exact (runAll_map_pushc_char bits _).trans ht

/-- After a string of symbols INV is set if it was set before or one of them is no bit. -/
theorem runAll_map_pushc_inv (codes : List (BitVec 8)) (s : State) :
    ∃ t : State, runAll (codes.map Instr.pushc) s = .next t ∧
      (t.frame.inv = true ↔ s.frame.inv = true ∨ ∃ c ∈ codes, c ≠ 0x30 ∧ c ≠ 0x31) := by
  induction codes generalizing s with
  | nil => exact ⟨s, rfl, by simp⟩
  | cons c codes ih =>
    obtain ⟨u, -, hu, -⟩ := exec_answers (.pushc c) s
    obtain ⟨t, ht, hinv⟩ := ih u
    refine ⟨t, (runAll_cons hu _).trans ht, ?_⟩
    rw [hinv, exec_inv_iff (i := .pushc c) nofun hu, or_assoc]
    simp

/-- While INV is set a decode fails with no payload. -/
theorem exec_decode_of_inv {i : Instr} {s : State} (hi : decodes i = true) (hinv : s.frame.inv = true) :
    ∃ t : State, exec i s = .next t ∧ t.result.st = .eInvalid ∧ t.result.pb = [] := by
  obtain ⟨m, rfl⟩ | rfl := decodes_eq_true_iff.mp hi
  · exact ⟨_, exec_dech_of_result (hammingResult_of_inv hinv m) rfl, rfl, rfl⟩
  · exact ⟨_, exec_decf_of_result (fletcherResult_of_inv hinv) rfl, rfl, rfl⟩

/-- While OVF is set, and INV is not, a decode fails with no payload. -/
theorem exec_decode_of_ovf {i : Instr} {s : State} (hi : decodes i = true) (hinv : s.frame.inv = false)
    (hovf : s.frame.ovf = true) :
    ∃ t : State, exec i s = .next t ∧ t.result.st = .eOvf ∧ t.result.pb = [] := by
  obtain ⟨m, rfl⟩ | rfl := decodes_eq_true_iff.mp hi
  · exact ⟨_, exec_dech_of_result (hammingResult_of_ovf hinv hovf m) rfl, rfl, rfl⟩
  · exact ⟨_, exec_decf_of_result (fletcherResult_of_ovf hinv hovf) rfl, rfl, rfl⟩

/-- Settles O17: the string leaves INV set, or the bits leave OVF set with INV clear, and then the decode fails. -/
theorem damagedLoadIsNeverDecoded : Obligations.DamagedLoadIsNeverDecoded := by
  refine fun s i hi => ⟨fun codes hbad => ?_, fun bits hlong => ?_⟩
  · obtain ⟨u, hu, hinv⟩ := runAll_map_pushc_inv codes (s.clearBlock.respond (okWord 0))
    obtain ⟨t, ht, hst, hpb⟩ := exec_decode_of_inv hi (hinv.mpr (.inr hbad))
    have hload : runAll (.clr :: codes.map Instr.pushc) s = .next u := (runAll_cons (exec_clr s) _).trans hu
    exact ⟨t, (runAll_append hload [i]).trans (runAll_cons ht []), hst, hpb⟩
  · obtain ⟨u, hu, -, hframe⟩ := runAll_clr_map_pushb bits s
    obtain ⟨t, ht, hst, hpb⟩ := exec_decode_of_ovf (s := u) hi (by rw [hframe]) (by simp [hframe, hlong])
    refine ⟨t, (runAll_append hu [i]).trans (runAll_cons ht []), hst, ?_, hpb⟩
    rw [exec_decode_frame hi ht, hframe]

end Sys2Proof.Machine

/-! SUPPORT. The other statements, on the Hamming decoder: the syndrome as an XOR of positions, flipped bits, the
positions of the candidate pairs, the classes of a decode, and what flips make of a valid frame. -/

namespace Sys2Proof.Machine

/-! ### Frames as functions of the position -/

/-- A frame is the list of its bits by position. -/
theorem map_bitAt_positions (f : List Bit) : (positions f.length).map (bitAt f) = f := by
  refine List.ext_getElem (by simp [positions]) fun k _ hk => ?_
  have hpos : (positions f.length)[k]'(by simpa [positions] using hk) = k + 1 := by simp [positions, Nat.add_comm]
  rw [List.getElem_map, hpos, bitAt_succ, List.getD_eq_getElem _ _ hk]

theorem take_flipBit (bits : List Bit) (n e : Nat) : (flipBit bits e).take n = flipBit (bits.take n) e := by
  cases e with
  | zero => rfl
  | succ k => exact List.take_modify _ k n bits

/-- Past the end there is nothing to flip. -/
theorem flipBit_of_length_lt {bits : List Bit} {e : Nat} (h : bits.length < e) : flipBit bits e = bits := by
  cases e with
  | zero => rfl
  | succ k => exact List.modify_eq_self (Nat.le_of_lt_succ h)

theorem flipBit_flipBit (bits : List Bit) (e : Nat) : flipBit (flipBit bits e) e = bits := by
  cases e with
  | zero => rfl
  | succ k =>
    have hnot : ((fun b : Bit => !b) ∘ fun b : Bit => !b) = id := funext Bool.not_not
    rw [flipBit, flipBit, List.modify_modify_eq, hnot, List.modify_id]

/-- The positions at which two frames of one length differ, ascending. -/
def differing (f g : List Bit) : List Nat := (positions f.length).filter fun i => bitAt f i != bitAt g i

/-- The distance of two frames is the number of positions they differ at. -/
theorem distance_eq_length_differing {f g : List Bit} (h : f.length = g.length) :
    distance f g = (differing f g).length := by
  have hzip : f.zip g = (positions f.length).map fun i => (bitAt f i, bitAt g i) := by
    conv_lhs => rw [← map_bitAt_positions f, ← map_bitAt_positions g, ← h]
    exact List.zip_map'
  rw [distance, hzip, List.filter_map, List.length_map]
  rfl

/-- A frame and the one with position e flipped differ at e alone. -/
theorem differing_flipBit {f : List Bit} {e : Nat} (h1 : 1 ≤ e) (h2 : e ≤ f.length) :
    differing f (flipBit f e) = [e] := by
  have honly : ∀ i ∈ positions f.length, (bitAt f i != bitAt (flipBit f e) i) = (i == e) := by
    intro i _
    rw [bitAt_flipBit h1 h2]
    by_cases hi : i = e
    · simp [hi]
    · simp [hi]
  rw [differing, List.filter_congr honly, List.filter_beq,
    List.count_eq_one_of_mem (nodup_positions _) (mem_positions.mpr ⟨h1, h2⟩), List.replicate_one]

/-- Flipping one bit flips the overall parity. -/
theorem globalComputed_flipBit {f : List Bit} {e : Nat} (h1 : 1 ≤ e) (h2 : e ≤ f.length) :
    globalComputed (flipBit f e) = !globalComputed f := by
  have hlen : f.length = (flipBit f e).length := (flipBit_length f e).symm
  have hne : globalComputed f ≠ globalComputed (flipBit f e) := by
    rw [globalComputed_ne_iff hlen, distance_eq_length_differing hlen, differing_flipBit h1 h2]
    rfl
  exact Bool.eq_not_of_ne hne.symm

/-! ### The syndrome as an XOR of positions (41_hamming.md section 4) -/

/-- The XOR of a sequence of numbers; 0 for none. -/
def xorSum (l : List Nat) : Nat := l.foldl (· ^^^ ·) 0

/-- XOR goes bit by bit. -/
theorem testBit_xorSum (l : List Nat) (k : Nat) : (xorSum l).testBit k = xorAll (l.map fun i => i.testBit k) := by
  have hfold := List.foldl_hom (fun x : Nat => x.testBit k) (g₂ := fun (b : Bool) y => b ^^ y.testBit k)
    (l := l) (init := 0) fun x y => (Nat.testBit_xor x y k).symm
  rw [xorSum, ← hfold, Nat.zero_testBit, xorAll, List.foldl_map]

/-- An element that is filtered out counts as 0. -/
theorem xorAll_map_filter {α : Type} (p f : α → Bool) (l : List α) :
    xorAll ((l.filter p).map f) = xorAll (l.map fun a => p a && f a) := by
  induction l with
  | nil => rfl
  | cons a l ih => cases hp : p a <;> simp [hp, ih]

theorem xorAll_map_xor {α : Type} (f g : α → Bool) (l : List α) :
    (xorAll (l.map f) ^^ xorAll (l.map g)) = xorAll (l.map fun a => f a != g a) := by
  rw [xorAll_xor_xorAll (by simp), List.zip_map', List.map_map]
  rfl

/-- Every bit of the syndrome is the parity of its group: a group beyond the code block is empty and even. -/
theorem testBit_syndrome_eq_groupParity (code : List Bit) (k : Nat) :
    (syndrome code).testBit k = groupParity code (2 ^ k) := by
  by_cases h : 2 ^ k ≤ code.length
  · rw [testBit_syndrome, decide_eq_true h, Bool.true_and]
  · have hempty : (positions code.length).filter (covers (2 ^ k)) = [] := by
      rw [List.filter_eq_nil_iff]
      intro i hi
      have hlt : i < 2 ^ k := (mem_positions.mp hi).2.trans_lt (Nat.lt_of_not_le h)
      rw [covers_two_pow, Nat.testBit_lt_two_pow hlt]
      decide
    rw [testBit_syndrome, decide_eq_false h, groupParity, hempty]
    rfl

theorem syndrome_eq_xorSum (code : List Bit) :
    syndrome code = xorSum ((positions code.length).filter (bitAt code)) := by
  refine Nat.eq_of_testBit_eq fun k => ?_
  rw [testBit_syndrome_eq_groupParity, groupParity, testBit_xorSum, xorAll_map_filter, xorAll_map_filter]
  simp only [covers_two_pow, Bool.and_comm]

/-- The syndromes of two code blocks differ by the XOR of the positions the blocks differ at. -/
theorem syndrome_xor_syndrome {f g : List Bit} (h : f.length = g.length) :
    syndrome f ^^^ syndrome g = xorSum (differing f g) := by
  refine Nat.eq_of_testBit_eq fun k => ?_
  rw [Nat.testBit_xor, syndrome_eq_xorSum, syndrome_eq_xorSum, testBit_xorSum, testBit_xorSum, testBit_xorSum,
    differing, xorAll_map_filter, xorAll_map_filter, xorAll_map_filter, ← h, xorAll_map_xor]
  simp only [Bool.and_xor_distrib_right, Bool.bne_eq_xor]

theorem syndrome_flipBit {code : List Bit} {e : Nat} (h1 : 1 ≤ e) (h2 : e ≤ code.length) :
    syndrome (flipBit code e) = syndrome code ^^^ e := by
  have hxor := syndrome_xor_syndrome (flipBit_length code e).symm
  rw [differing_flipBit h1 h2, xorSum, List.foldl_cons, List.foldl_nil, Nat.zero_xor] at hxor
  calc syndrome (flipBit code e)
    _ = syndrome code ^^^ (syndrome code ^^^ syndrome (flipBit code e)) := (Nat.xor_xor_cancel_left _ _).symm
    _ = syndrome code ^^^ e := by rw [hxor]

/-- Settles O30: the bits of both sides are the parities of the groups, and a flip adds its position to the XOR. -/
theorem syndromeIsTheXorOfOnes : Obligations.SyndromeIsTheXorOfOnes := fun code =>
  ⟨syndrome_eq_xorSum code, fun _ => syndrome_flipBit⟩

/-- Settles O33: the class H_CORR of `classifySecded`; the flip changes position SYN alone and takes SYN from the
syndrome. -/
theorem dechCorrectsOneBit : Obligations.DechCorrectsOneBit := by
  intro s hc fb code syn hsyn hgpc hM
  have h1 : 1 ≤ syn := Nat.one_le_iff_ne_zero.mpr hsyn
  exact ⟨exec_dech_of_clean hc (hammingDecode_secded rfl hgpc (classifySecded_corr hsyn hM _ _)),
    bitAt_flipBit h1 hM, (syndrome_flipBit h1 hM).trans (Nat.xor_self syn)⟩

/-- Settles O34: the class H_OOR of `classifySecded`. -/
theorem dechSyndromeOutOfRange : Obligations.DechSyndromeOutOfRange := fun _ hc _ hgpc hM =>
  exec_dech_of_clean hc (hammingDecode_secded rfl hgpc (classifySecded_oor hM _ _))

/-! ### The positions of the candidate pairs (41_hamming.md R87) -/

/-- The lower positions of the candidate pairs of a code block of length M, ascending. -/
def lowerPositions (M syn : Nat) : List Nat := (positions M).filter fun i => i < i ^^^ syn ∧ i ^^^ syn ≤ M

theorem mem_lowerPositions {M syn i : Nat} :
    i ∈ lowerPositions M syn ↔ 1 ≤ i ∧ i < i ^^^ syn ∧ i ^^^ syn ≤ M := by
  rw [lowerPositions, List.mem_filter, mem_positions, decide_eq_true_iff]
  omega

theorem lowerPositions_pairwise_lt (M syn : Nat) : (lowerPositions M syn).Pairwise (· < ·) :=
  (List.pairwise_lt_range' 1).filter _

/-- The positions of the candidate pairs, in the order of the report. -/
def pairedPositions (M syn : Nat) : List Nat := (lowerPositions M syn).flatMap fun i => [i, i ^^^ syn]

theorem candidatePairs_eq_flatMap (code : List Bit) (syn : Nat) :
    candidatePairs code syn =
      (lowerPositions code.length syn).flatMap fun i => [entryAt code i, entryAt code (i ^^^ syn)] :=
  flatMap_if_nil _ _ _

theorem candidatePairs_map_pos (code : List Bit) (syn : Nat) :
    (candidatePairs code syn).map ErrEntry.pos = (pairedPositions code.length syn).map (BitVec.ofNat 24) := by
  rw [candidatePairs_eq_flatMap, pairedPositions, List.map_flatMap, List.map_flatMap]
  rfl

/-- The two elements that a loop over pairs makes of the element at index t stand at 2t and 2t + 1. -/
theorem getElem?_flatMap_pair {α β : Type} (f g : α → β) (l : List α) (t : Nat) :
    (l.flatMap fun a => [f a, g a])[2 * t]? = l[t]?.map f ∧
    (l.flatMap fun a => [f a, g a])[2 * t + 1]? = l[t]?.map g := by
  induction l generalizing t with
  | nil => exact ⟨rfl, rfl⟩
  | cons a l ih =>
    cases t with
    | zero => exact ⟨rfl, rfl⟩
    | succ t => exact ih t

theorem length_flatMap_pair {α β : Type} (f g : α → β) (l : List α) :
    (l.flatMap fun a => [f a, g a]).length = 2 * l.length := by
  rw [List.length_flatMap]
  simp [Nat.mul_comm]

theorem candidatePairs_length (code : List Bit) (syn : Nat) :
    (candidatePairs code syn).length = 2 * (lowerPositions code.length syn).length := by
  rw [candidatePairs_eq_flatMap, length_flatMap_pair]

/-- A pair of the code block whose XOR is the syndrome stands in the list at the place of its lower position. -/
theorem exists_candidatePairs_getElem? {code : List Bit} {i j : Nat} (h1 : 1 ≤ i) (hlt : i < j)
    (hj : j ≤ code.length) :
    ∃ t : Nat, (candidatePairs code (i ^^^ j))[2 * t]? = some (entryAt code i) ∧
      (candidatePairs code (i ^^^ j))[2 * t + 1]? = some (entryAt code j) := by
  have hmem : i ∈ lowerPositions code.length (i ^^^ j) := by
    rw [mem_lowerPositions, Nat.xor_xor_cancel_left]
    exact ⟨h1, hlt, hj⟩
  obtain ⟨t, ht⟩ := List.mem_iff_getElem?.mp hmem
  refine ⟨t, ?_⟩
  rw [candidatePairs_eq_flatMap, (getElem?_flatMap_pair _ _ _ t).1, (getElem?_flatMap_pair _ _ _ t).2, ht]
  simp

/-- The two entries at an even index are those of a lower position and its partner. -/
theorem exists_lowerPositions_of_getElem? {code : List Bit} {syn t : Nat} {a : ErrEntry}
    (h : (candidatePairs code syn)[2 * t]? = some a) :
    ∃ i ∈ lowerPositions code.length syn, (lowerPositions code.length syn)[t]? = some i ∧ a = entryAt code i ∧
      (candidatePairs code syn)[2 * t + 1]? = some (entryAt code (i ^^^ syn)) := by
  rw [candidatePairs_eq_flatMap, (getElem?_flatMap_pair _ _ _ t).1] at h
  obtain ⟨i, hi, rfl⟩ := Option.map_eq_some_iff.mp h
  refine ⟨i, List.mem_of_getElem? hi, hi, rfl, ?_⟩
  rw [candidatePairs_eq_flatMap, (getElem?_flatMap_pair _ _ _ t).2, hi]
  rfl

theorem mem_pairedPositions {M syn j : Nat} :
    j ∈ pairedPositions M syn ↔ ∃ i ∈ lowerPositions M syn, j = i ∨ j = i ^^^ syn := by
  simp [pairedPositions, List.mem_flatMap]

theorem bounds_of_mem_pairedPositions {M syn j : Nat} (h : j ∈ pairedPositions M syn) : 1 ≤ j ∧ j ≤ M := by
  obtain ⟨i, hi, hj⟩ := mem_pairedPositions.mp h
  obtain ⟨h1, hlt, hM⟩ := mem_lowerPositions.mp hi
  omega

/-- Two pairs that share a position are one pair, since each position has one partner. -/
theorem nodup_pairedPositions (M syn : Nat) : (pairedPositions M syn).Nodup := by
  refine List.nodup_flatMap.mpr ⟨fun i hi => ?_, ?_⟩
  · obtain ⟨-, hlt, -⟩ := mem_lowerPositions.mp hi
    simpa using hlt.ne
  · refine (lowerPositions_pairwise_lt M syn).imp_of_mem fun {i j} hi hj hij => ?_
    obtain ⟨-, hi', -⟩ := mem_lowerPositions.mp hi
    obtain ⟨-, hj', -⟩ := mem_lowerPositions.mp hj
    have hpartner : i ^^^ syn ≠ j := by
      rintro rfl
      rw [Nat.xor_xor_cancel_right] at hj'
      omega
    have hpartners : i ^^^ syn ≠ j ^^^ syn := fun h => hij.ne (Nat.xor_left_inj.mp h)
    simp only [Function.onFun, List.disjoint_cons_left, List.mem_cons, List.not_mem_nil, or_false,
      List.disjoint_nil_left, and_true, not_or]
    exact ⟨⟨hij.ne, by omega⟩, hpartner, hpartners⟩

/-- The partner of SYN would be position 0. -/
theorem not_mem_pairedPositions (M syn : Nat) : syn ∉ pairedPositions M syn := by
  intro h
  obtain ⟨i, hi, rfl | hj⟩ := mem_pairedPositions.mp h
  · obtain ⟨-, hlt, -⟩ := mem_lowerPositions.mp hi
    rw [Nat.xor_self] at hlt
    exact absurd hlt (Nat.not_lt_zero _)
  · obtain ⟨h1, -, -⟩ := mem_lowerPositions.mp hi
    have hzero : i = 0 := Nat.xor_left_inj.mp ((Nat.zero_xor syn).trans hj).symm
    omega

/-! ### Positions in 24 bits (00_scope.md R5) -/

/-- Positions below 2^24 are told apart by their registers. -/
theorem ofNat_pos_inj {i j : Nat} (hi : i < 2 ^ 24) (hj : j < 2 ^ 24) (h : BitVec.ofNat 24 i = BitVec.ofNat 24 j) :
    i = j := by
  have hnat := congrArg BitVec.toNat h
  rwa [BitVec.toNat_ofNat, BitVec.toNat_ofNat, Nat.mod_eq_of_lt hi, Nat.mod_eq_of_lt hj] at hnat

theorem nodup_map_ofNat {l : List Nat} (hl : l.Nodup) (h : ∀ i ∈ l, i < 2 ^ 24) :
    (l.map (BitVec.ofNat 24)).Nodup :=
  hl.map_on fun i hi j hj => ofNat_pos_inj (h i hi) (h j hj)

theorem entryAt_pos_toNat {code : List Bit} {i : Nat} (h : i < 2 ^ 24) : (entryAt code i).pos.toNat = i := by
  rw [entryAt, BitVec.toNat_ofNat, Nat.mod_eq_of_lt h]

/-- Settles O36: the entries at 2t and 2t + 1 are those of the t-th lower position and its partner, and each position
has one partner. -/
theorem candidatePairsAreExactlyThePairs : Obligations.CandidatePairsAreExactlyThePairs := by
  intro code syn hM _ hsyn
  have hlt : ∀ i ∈ pairedPositions code.length syn, i < 2 ^ 24 := fun i hi =>
    (bounds_of_mem_pairedPositions hi).2.trans_lt hM
  have hlow : ∀ i ∈ lowerPositions code.length syn, i < 2 ^ 24 := fun i hi =>
    hlt i (mem_pairedPositions.mpr ⟨i, hi, .inl rfl⟩)
  refine ⟨fun i j h1 hij hj => ⟨?_, ?_⟩, fun t ht => ?_, fun t u a b htu ha hb => ?_, ?_, ?_, ?_⟩
  · rintro rfl
    exact exists_candidatePairs_getElem? h1 hij hj
  · rintro ⟨t, hi, hj'⟩
    obtain ⟨i', hmem, -, hpos, hnext⟩ := exists_lowerPositions_of_getElem? hi
    obtain ⟨-, hlt', hM'⟩ := mem_lowerPositions.mp hmem
    have hnext' := Option.some.inj (hj'.symm.trans hnext)
    obtain rfl : i = i' := ofNat_pos_inj (by omega) (hlow i' hmem) (congrArg ErrEntry.pos hpos)
    obtain rfl : j = i ^^^ syn := ofNat_pos_inj (by omega) (by omega) (congrArg ErrEntry.pos hnext')
    exact Nat.xor_xor_cancel_left i syn
  · obtain ⟨i, hmem, -, hpos, hnext⟩ := exists_lowerPositions_of_getElem? (List.getElem?_eq_getElem ht)
    obtain ⟨h1, hlt', hM'⟩ := mem_lowerPositions.mp hmem
    exact ⟨i, i ^^^ syn, h1, hlt', hM', Nat.xor_xor_cancel_left i syn,
      (List.getElem?_eq_getElem ht).trans (congrArg some hpos), hnext⟩
  · obtain ⟨i, hi, hti, rfl, -⟩ := exists_lowerPositions_of_getElem? ha
    obtain ⟨j, hj, huj, rfl, -⟩ := exists_lowerPositions_of_getElem? hb
    obtain ⟨ht, rfl⟩ := List.getElem?_eq_some_iff.mp hti
    obtain ⟨hu, rfl⟩ := List.getElem?_eq_some_iff.mp huj
    rw [entryAt_pos_toNat (hlow _ hi), entryAt_pos_toNat (hlow _ hj)]
    exact List.pairwise_iff_getElem.mp (lowerPositions_pairwise_lt _ _) t u ht hu htu
  · rw [candidatePairs_map_pos]
    exact nodup_map_ofNat (nodup_pairedPositions _ _) hlt
  · rw [candidatePairs_length, Nat.mul_mod_right]
  · rw [candidatePairs_map_pos, List.mem_map]
    rintro ⟨i, hi, hpos⟩
    exact not_mem_pairedPositions _ _ (ofNat_pos_inj (hlt i hi) hsyn hpos ▸ hi)

end Sys2Proof.Machine

/-! SUPPORT. The other statements, on the classes of a Hamming decode: the size of the report, and what flipped bits
make of a valid SECDED frame. -/

namespace Sys2Proof.Machine

/-! ### The report of the class H_DBL (41_hamming.md R87, R88) -/

/-- The positions that class H_DBL reports for a code block of length M: the candidate pairs, and SYN with the global
parity position M + 1 when SYN names a position of the code block. -/
def dblPositions (M syn : Nat) : List Nat := pairedPositions M syn ++ if syn ≤ M then [syn, M + 1] else []

/-- Class H_DBL reports the entries of those positions, the global parity bit with its own value. -/
theorem verdictDbl_map_pos {code : List Bit} {gp : Bit} {N syn : Nat} (hsyn : syn ≠ 0) (hN : code.length + 1 = N) :
    (verdictDbl code gp N syn).er.map ErrEntry.pos = (dblPositions code.length syn).map (BitVec.ofNat 24) := by
  subst hN
  rw [verdictDbl, dblPositions, List.map_append, List.map_append, candidatePairs_map_pos, additionalPair]
  by_cases hM : syn ≤ code.length
  · simp [hM, Nat.one_le_iff_ne_zero.mpr hsyn, entryAt]
  · simp [hM]

theorem verdictDbl_er_length {code : List Bit} {gp : Bit} {N syn : Nat} (hsyn : syn ≠ 0) :
    (verdictDbl code gp N syn).er.length =
      2 * (lowerPositions code.length syn).length + if syn ≤ code.length then 2 else 0 := by
  rw [verdictDbl, List.length_append, candidatePairs_length, additionalPair]
  by_cases hM : syn ≤ code.length
  · simp [hM, Nat.one_le_iff_ne_zero.mpr hsyn]
  · simp [hM]

theorem bounds_of_mem_dblPositions {M syn j : Nat} (hsyn : syn ≠ 0) (h : j ∈ dblPositions M syn) :
    1 ≤ j ∧ j ≤ M + 1 := by
  rw [dblPositions, List.mem_append] at h
  obtain hj | hj := h
  · have := bounds_of_mem_pairedPositions hj
    omega
  · split at hj
    · simp only [List.mem_cons, List.not_mem_nil, or_false] at hj
      omega
    · cases hj

/-- No position is reported twice: neither SYN nor M + 1 is in a pair of the code block. -/
theorem nodup_dblPositions (M syn : Nat) : (dblPositions M syn).Nodup := by
  rw [dblPositions]
  split
  · next hM =>
    have hlast : M + 1 ∉ pairedPositions M syn := fun h =>
      Nat.not_succ_le_self M (bounds_of_mem_pairedPositions h).2
    refine (nodup_pairedPositions M syn).append (by simp; omega) ?_
    simp [List.disjoint_cons_right, not_mem_pairedPositions, hlast]
  · rw [List.append_nil]
    exact nodup_pairedPositions M syn

/-- A report without repeated positions is no longer than the frame. -/
theorem dblPositions_length_le {M syn : Nat} (hsyn : syn ≠ 0) : (dblPositions M syn).length ≤ M + 1 := by
  have hsub : dblPositions M syn ⊆ positions (M + 1) := fun j hj =>
    mem_positions.mpr (bounds_of_mem_dblPositions hsyn hj)
  simpa [positions] using ((nodup_dblPositions M syn).subperm hsub).length_le

/-- A syndrome beyond the code block has a candidate pair: its leading power of two 2^k, which is a parity position, and
the rest, which is not 0. -/
theorem exists_mem_lowerPositions {code : List Bit} (h : code.length < syndrome code) :
    ∃ i, i ∈ lowerPositions code.length (syndrome code) := by
  have hsyn : syndrome code ≠ 0 := Nat.ne_zero_of_lt h
  obtain ⟨k, hk⟩ : ∃ k, k = (syndrome code).log2 := ⟨_, rfl⟩
  have hbit : (syndrome code).testBit k = true := hk ▸ Nat.testBit_log2 hsyn
  have hM : 2 ^ k ≤ code.length := by
    rw [testBit_syndrome, Bool.and_eq_true, decide_eq_true_iff] at hbit
    exact hbit.1
  have hrest : 2 ^ k ^^^ syndrome code < 2 ^ k := by
    refine Nat.lt_pow_two_of_testBit _ fun j hj => ?_
    obtain rfl | hlt := Nat.eq_or_lt_of_le hj
    · rw [Nat.testBit_xor, Nat.testBit_two_pow_self, hbit]
      rfl
    · have htop : syndrome code < 2 ^ j :=
        (hk ▸ Nat.lt_log2_self).trans_le (Nat.pow_le_pow_right (by decide) hlt)
      rw [Nat.testBit_xor, Nat.testBit_two_pow_of_ne hlt.ne, Nat.testBit_lt_two_pow htop]
      rfl
  have hpos : 2 ^ k ^^^ syndrome code ≠ 0 := by
    rw [Ne, Nat.xor_eq_zero_iff]
    omega
  refine ⟨2 ^ k ^^^ syndrome code, mem_lowerPositions.mpr ?_⟩
  rw [Nat.xor_xor_cancel_right]
  exact ⟨Nat.one_le_iff_ne_zero.mpr hpos, hrest, hM⟩

/-- With a syndrome that is not 0 class H_DBL reports at least one pair. -/
theorem two_le_verdictDbl_er_length {code : List Bit} {gp : Bit} {N : Nat} (hsyn : syndrome code ≠ 0) :
    2 ≤ (verdictDbl code gp N (syndrome code)).er.length := by
  rw [verdictDbl_er_length hsyn]
  by_cases hM : syndrome code ≤ code.length
  · rw [if_pos hM]
    omega
  · obtain ⟨i, hi⟩ := exists_mem_lowerPositions (Nat.lt_of_not_le hM)
    have := List.length_pos_of_mem hi
    omega

/-! ### The classes of a decode (41_hamming.md R83 to R89) -/

/-- What DECH finds in a code block with global parity bit `gp`, in a frame of length N: the class, with what it says of
the syndrome, the mode and GPC, and the verdict. -/
inductive Classified (code : List Bit) (gp : Bit) (N : Nat) (m gpc : Bit) : Verdict → Prop
  | noErr : syndrome code = 0 → gpc = false → Classified code gp N m gpc (verdictNoErr code)
  | gpErr : m = true → syndrome code = 0 → gpc = true → Classified code gp N m gpc (verdictGpErr code gp N)
  | corr : syndrome code ≠ 0 → syndrome code ≤ code.length → gpc = m →
      Classified code gp N m gpc (verdictCorr code (syndrome code))
  | oor : code.length < syndrome code → gpc = m → Classified code gp N m gpc (verdictOor code (syndrome code))
  | dbl : m = true → syndrome code ≠ 0 → gpc = false →
      Classified code gp N m gpc (verdictDbl code gp N (syndrome code))

theorem classifySecded_classified (code : List Bit) (gp : Bit) (N : Nat) (gpc : Bit) :
    Classified code gp N true gpc (classifySecded code gp N (syndrome code) gpc) := by
  by_cases h : syndrome code = 0
  · cases gpc with
    | false => rw [h]; exact .noErr h rfl
    | true => rw [h]; exact .gpErr rfl h rfl
  · cases gpc with
    | false => rw [classifySecded_dbl h]; exact .dbl rfl h rfl
    | true =>
      obtain hM | hM := le_or_gt (syndrome code) code.length
      · rw [classifySecded_corr h hM]; exact .corr h hM rfl
      · rw [classifySecded_oor hM]; exact .oor hM rfl

theorem classifyPlain_classified (code : List Bit) (gp : Bit) (N : Nat) :
    Classified code gp N false false (classifyPlain code (syndrome code)) := by
  by_cases h : syndrome code = 0
  · rw [classifyPlain_noErr h]; exact .noErr h rfl
  · obtain hM | hM := le_or_gt (syndrome code) code.length
    · rw [classifyPlain_corr h hM]; exact .corr h hM rfl
    · rw [classifyPlain_oor hM]; exact .oor hM rfl

/-- The result state that DECH writes for a verdict (41_hamming.md R92). -/
def verdictResult (code : List Bit) (gp m gpc : Bit) (v : Verdict) : Result :=
  { st := v.st, alg := false, mode := m, syn := BitVec.ofNat 24 (syndrome code), gpc := gpc, gpb := gp,
    cpos := BitVec.ofNat 24 v.cpos, s1 := 0, s2 := 0, rxck := 0, pb := payload v.code, er := v.er }

/-- A decode writes the result of a class of its code block. -/
theorem hammingDecode_classified (fb : List Bit) (m : Bit) : ∃ v : Verdict,
    Classified (split fb m).1 (split fb m).2 fb.length m (m && globalComputed fb) v ∧
    hammingDecode fb m = verdictResult (split fb m).1 (split fb m).2 m (m && globalComputed fb) v := by
  cases m with
  | true => exact ⟨_, classifySecded_classified _ _ _ _, hammingDecode_secded rfl rfl rfl⟩
  | false => exact ⟨_, classifyPlain_classified _ _ _, hammingDecode_plain rfl rfl⟩

/-- The length of the code block (41_hamming.md R77). -/
theorem split_code_length (fb : List Bit) (m : Bit) :
    (split fb m).1.length = if m then fb.length - 1 else fb.length := by
  cases m with
  | true => simp [split]
  | false => rfl

/-- In mode 1 the code block is the frame without its last bit. -/
theorem split_code_length_succ {fb : List Bit} {m : Bit} (hfb : fb ≠ []) (hm : m = true) :
    (split fb m).1.length + 1 = fb.length := by
  subst hm
  rw [split_code_length, if_pos rfl, Nat.sub_add_cancel (List.length_pos_iff.mpr hfb)]

section
variable {code : List Bit} {gp m gpc : Bit} {N : Nat} {v : Verdict}

/-- The two classes that name the global parity bit are of mode 1 (41_hamming.md R89). -/
theorem Classified.mode_eq_true (h : Classified code gp N m gpc v) (hst : v.st ∈ [Status.hGpErr, .hDbl]) :
    m = true := by
  cases h with
  | gpErr hm | dbl hm => exact hm
  | noErr | corr | oor => simp [verdictNoErr, verdictCorr, verdictOor] at hst

/-- The size of the report in each class (41_hamming.md R90). -/
theorem Classified.er_length (h : Classified code gp N m gpc v) (hN : m = true → code.length + 1 = N) :
    (v.st = .hNoErr → v.er.length = 0) ∧ (v.st ∈ [Status.hGpErr, .hCorr, .hOor] → v.er.length = 1) ∧
    (v.st = .hDbl → v.er.length =
        2 * (lowerPositions code.length (syndrome code)).length + (if syndrome code ≤ code.length then 2 else 0) ∧
      2 ≤ v.er.length ∧ v.er.length ≤ N) := by
  cases h with
  | noErr => exact ⟨fun _ => rfl, nofun, nofun⟩
  | gpErr | corr | oor => exact ⟨nofun, fun _ => rfl, nofun⟩
  | dbl hm hsyn hg =>
    refine ⟨nofun, nofun, fun _ => ⟨verdictDbl_er_length hsyn, two_le_verdictDbl_er_length hsyn, ?_⟩⟩
    have hlen := congrArg List.length (verdictDbl_map_pos (gp := gp) hsyn (hN hm))
    rw [List.length_map, List.length_map] at hlen
    rw [hlen, ← hN hm]
    exact dblPositions_length_le hsyn

/-- No class reports a position twice. -/
theorem Classified.nodup_pos (h : Classified code gp N m gpc v) (hN : m = true → code.length + 1 = N)
    (hfit : N < 2 ^ 24) : (v.er.map ErrEntry.pos).Nodup := by
  cases h with
  | noErr => exact List.nodup_nil
  | gpErr | corr | oor => exact List.nodup_singleton _
  | dbl hm hsyn hg =>
    rw [verdictDbl_map_pos hsyn (hN hm)]
    refine nodup_map_ofNat (nodup_dblPositions _ _) fun j hj => ?_
    have := bounds_of_mem_dblPositions hsyn hj
    have := hN hm
    omega

end

theorem syndrome_lt_of_length_lt {code : List Bit} (h : code.length < 2 ^ 24) : syndrome code < 2 ^ 24 :=
  (syndrome_lt code).trans_le (Nat.pow_le_pow_right (by decide) (bitlen_le_iff.mpr h))

/-- SYN holds the syndrome of a code block that fits. -/
theorem syn_toNat {code : List Bit} (hM : code.length < 2 ^ 24) :
    (BitVec.ofNat 24 (syndrome code)).toNat = syndrome code :=
  Nat.mod_eq_of_lt (syndrome_lt_of_length_lt hM)

theorem split_code_length_lt {fb : List Bit} (h : fb.length < 2 ^ 24) (m : Bit) : (split fb m).1.length < 2 ^ 24 := by
  rw [split_code_length]
  split <;> omega

/-- Settles O38: DECH writes the report of a class, whose size and positions `Classified.er_length` and
`Classified.nodup_pos` give; H_DBL occurs in mode 1 alone, where the code block has one bit less than the frame. -/
theorem reportSizePerClass : Obligations.ReportSizePerClass := by
  intro s m hc hfit
  obtain ⟨hinv, hovf, hfb⟩ := id hc
  have hlt : s.frame.fb.length < 2 ^ 24 := lt_of_le_of_lt hfit (nmax_lt s.params)
  obtain ⟨v, hv, hr⟩ := hammingDecode_classified s.frame.fb m
  have hst := hammingDecode_st_mem s.frame.fb m
  obtain ⟨hnone, hone, hdbl⟩ := hv.er_length (split_code_length_succ hfb)
  refine ⟨_, exec_dech_of_clean hc hr, hnone, hone, fun hd => ?_, hr ▸ hst,
    hv.nodup_pos (split_code_length_succ hfb) hlt⟩
  obtain ⟨hlen, htwo, hle⟩ := hdbl hd
  have hm : m = true := hv.mode_eq_true (by rw [show v.st = .hDbl from hd]; decide)
  subst hm
  have hM : (split s.frame.fb true).1.length = s.frame.fb.length - 1 := split_code_length _ _
  have hsyn : (BitVec.ofNat 24 (syndrome (split s.frame.fb true).1)).toNat = syndrome (split s.frame.fb true).1 :=
    syn_toNat (split_code_length_lt hlt true)
  refine ⟨?_, htwo, hle, ?_⟩
  · show v.er.length % 2 = 0
    rw [hlen]
    split <;> omega
  · simp only [verdictResult, hsyn, ← hM]
    exact hlen

end Sys2Proof.Machine

/-! SUPPORT. The other statements, on the invariant of 10_state.md section 6: it holds of every state that holds a clear
result, a failure, or the result of one of the two decodes of its frame. -/

namespace Sys2Proof.Machine

/-! ### States whose result is clear or a failure (10_state.md R22, R33) -/

/-- The invariant is one of the block: the host's side of the port has no part in it. -/
theorem Invariant.congr {s t : State} (hs : Invariant s) (hp : t.params = s.params) (hf : t.frame = s.frame)
    (hr : t.result = s.result) : Invariant t := by
  obtain ⟨params, frame, result, inputs, responses⟩ := t
  obtain rfl : params = s.params := hp
  obtain rfl : frame = s.frame := hf
  obtain rfl : result = s.result := hr
  exact ⟨hs.fits, hs.noneIsClear, hs.failureIsBare, hs.statusMatchesCommand, hs.statusMatchesFlags, hs.reportSize,
    hs.syndromeMatchesStatus, hs.payloadSize, hs.sumsBelow255, hs.correctedOnlyInCorr⟩

/-- With a clear result only the first item speaks of the frame. -/
theorem invariant_of_clear {s : State} (hfit : Fits s) (hr : s.result = Result.clear) : Invariant s where
  fits := hfit
  noneIsClear _ := hr
  failureIsBare := by rw [FailureIsBare, hr]; decide
  statusMatchesCommand := by rw [StatusMatchesCommand, hr]; decide
  statusMatchesFlags := by simp [StatusMatchesFlags, hr, Result.clear]
  reportSize := by simp [ReportSize, hr, Result.clear]
  syndromeMatchesStatus := by simp [SyndromeMatchesStatus, hr, Result.clear]
  payloadSize := by simp [PayloadSize, hr, Result.clear]
  sumsBelow255 := by rw [SumsBelow255, hr]; decide
  correctedOnlyInCorr := by rw [CorrectedOnlyInCorr, hr]; decide

/-- Settles O22: the frame is empty and the result clear. -/
theorem invariantHoldsAtReset : Obligations.InvariantHoldsAtReset :=
  invariant_of_clear (s := State.reset) (Nat.zero_le _) rfl

/-- What a decode failure says of the flags and of the command (60_exceptions.md R126 to R130). -/
abbrev FailureOf (f : Frame) (st : Status) (alg : Bit) : Prop :=
  (st = .eInvalid ∧ f.inv = true) ∨ (st = .eOvf ∧ f.inv = false ∧ f.ovf = true) ∨
  (st = .eEmpty ∧ f.inv = false ∧ f.ovf = false ∧ alg = false) ∨
  (st = .eShort ∧ f.inv = false ∧ f.ovf = false ∧ alg = true)

/-- After a decode failure items 4 and 5 are what it says, and the others do not speak of its status or ask for
registers that are clear. -/
theorem invariant_of_failure {s : State} {st : Status} {alg mode : Bit} (hfit : Fits s)
    (hr : s.result = Result.failure st alg mode) (hst : FailureOf s.frame st alg) : Invariant s := by
  have hcommand : StatusMatchesCommand s := by
    obtain ⟨rfl, -⟩ | ⟨rfl, -⟩ | ⟨rfl, -, -, rfl⟩ | ⟨rfl, -, -, rfl⟩ := hst <;>
      simp [StatusMatchesCommand, hr, Result.failure, Status.code]
  have hflags : StatusMatchesFlags s := by
    obtain ⟨rfl, hinv⟩ | ⟨rfl, hinv, hovf⟩ | ⟨rfl, hinv, hovf, -⟩ | ⟨rfl, hinv, hovf, -⟩ := hst <;>
      simp [StatusMatchesFlags, Result.failure, *]
  have hother : ∀ x ∉ [Status.eInvalid, .eOvf, .eEmpty, .eShort], st ≠ x := by
    rintro x hx rfl
    obtain ⟨rfl, -⟩ | ⟨rfl, -⟩ | ⟨rfl, -⟩ | ⟨rfl, -⟩ := hst <;> exact hx (by decide)
  exact {
    fits := hfit
    noneIsClear := by simp [NoneIsClear, hr, Result.failure, hother]
    failureIsBare := fun _ => by rw [hr]; rfl
    statusMatchesCommand := hcommand
    statusMatchesFlags := hflags
    reportSize := by simp [ReportSize, hr, Result.failure, Result.clear, hother]
    syndromeMatchesStatus := by simp [SyndromeMatchesStatus, hr, Result.failure, hother]
    payloadSize := by simp [PayloadSize, hr, Result.failure, hother]
    sumsBelow255 := by rw [SumsBelow255, hr]; exact ⟨Nat.zero_le _, Nat.zero_le _⟩
    correctedOnlyInCorr := by simp [CorrectedOnlyInCorr, hr, Result.failure, Result.clear, hother] }

/-- The codes that no status has (10_state.md R21). -/
theorem status_code_not_reserved (st : Status) : st.code.toNat ∉ [6, 7, 10, 11] := by
  cases st <;> decide

/-! ### States that hold a Hamming result (10_state.md R33, items 4 to 8 and 10) -/

section
variable {code : List Bit} {gp m gpc : Bit} {N : Nat} {v : Verdict}

theorem Classified.st_mem (h : Classified code gp N m gpc v) :
    v.st ∈ [Status.hNoErr, .hGpErr, .hCorr, .hDbl, .hOor] := by
  cases h <;> simp [verdictNoErr, verdictGpErr, verdictCorr, verdictOor, verdictDbl]

/-- A class reports nothing exactly when it is H_NOERR. -/
theorem Classified.er_length_eq_zero_iff (h : Classified code gp N m gpc v) :
    v.er.length = 0 ↔ v.st ∉ [Status.hGpErr, .hCorr, .hDbl, .hOor] := by
  cases h with
  | noErr | gpErr | corr | oor => simp [verdictNoErr, verdictGpErr, verdictCorr, verdictOor]
  | dbl _ hsyn _ =>
    have := two_le_verdictDbl_er_length (gp := gp) (N := N) hsyn
    exact iff_of_false (by omega) (by simp [verdictDbl])

theorem Classified.code_length (h : Classified code gp N m gpc v) : v.code.length = code.length := by
  cases h with
  | corr => exact flipBit_length _ _
  | noErr | gpErr | oor | dbl => rfl

/-- CPOS is the syndrome in class H_CORR, where it names a position of the code block, and 0 in every other. -/
theorem Classified.cpos_spec (h : Classified code gp N m gpc v) :
    (v.st = .hCorr → v.cpos = syndrome code ∧ syndrome code ≠ 0) ∧ (v.st ≠ .hCorr → v.cpos = 0) := by
  cases h with
  | corr hsyn => exact ⟨fun _ => ⟨rfl, hsyn⟩, fun hne => absurd rfl hne⟩
  | noErr | gpErr | oor | dbl => exact ⟨nofun, fun _ => rfl⟩

/-- What each class says of the syndrome and of GPC. -/
theorem Classified.syndrome_spec (h : Classified code gp N m gpc v) :
    (v.st = .hNoErr → syndrome code = 0 ∧ gpc = false) ∧ (v.st = .hGpErr → syndrome code = 0 ∧ gpc = true) ∧
    (v.st = .hCorr → syndrome code ≠ 0 ∧ syndrome code ≤ code.length ∧ gpc = m) ∧
    (v.st = .hDbl → syndrome code ≠ 0 ∧ gpc = false) ∧ (v.st = .hOor → code.length < syndrome code ∧ gpc = m) := by
  cases h with
  | noErr hsyn hg => exact ⟨fun _ => ⟨hsyn, hg⟩, nofun, nofun, nofun, nofun⟩
  | gpErr _ hsyn hg => exact ⟨nofun, fun _ => ⟨hsyn, hg⟩, nofun, nofun, nofun⟩
  | corr hsyn hM hg => exact ⟨nofun, nofun, fun _ => ⟨hsyn, hM, hg⟩, nofun, nofun⟩
  | dbl _ hsyn hg => exact ⟨nofun, nofun, nofun, fun _ => ⟨hsyn, hg⟩, nofun⟩
  | oor hM hg => exact ⟨nofun, nofun, nofun, nofun, fun _ => ⟨hM, hg⟩⟩

theorem Classified.st_ne (h : Classified code gp N m gpc v) {st : Status}
    (hst : st ∉ [Status.hNoErr, .hGpErr, .hCorr, .hDbl, .hOor]) : v.st ≠ st := by
  rintro rfl
  exact hst h.st_mem

end

theorem syn_eq_zero_iff {code : List Bit} (hM : code.length < 2 ^ 24) :
    BitVec.ofNat 24 (syndrome code) = 0 ↔ syndrome code = 0 :=
  ⟨ofNat_pos_inj (syndrome_lt_of_length_lt hM) (by decide), fun h => congrArg _ h⟩

section
variable {s : State} {code : List Bit} {gp m gpc : Bit} {v : Verdict}
  (hv : Classified code gp s.frame.len m gpc v) (hr : s.result = verdictResult code gp m gpc v)
include hv hr

theorem statusMatchesCommand_of_classified : StatusMatchesCommand s := by
  rw [StatusMatchesCommand, hr]
  exact ⟨fun _ => rfl, by simp [verdictResult, hv.st_ne], hv.mode_eq_true, by simp [verdictResult, hv.st_ne],
    fun _ => rfl, status_code_not_reserved _⟩

theorem reportSize_of_classified (hN : m = true → code.length + 1 = s.frame.len) : ReportSize s := by
  obtain ⟨-, hone, hdbl⟩ := hv.er_length hN
  rw [ReportSize, hr]
  refine ⟨hv.er_length_eq_zero_iff, hone, fun h => ?_⟩
  obtain ⟨hsize, htwo, hle⟩ := hdbl h
  have heven : v.er.length % 2 = 0 := by
    rw [hsize]
    split <;> omega
  exact ⟨heven, htwo, hle⟩

theorem syndromeMatchesStatus_of_classified (hM : code.length < 2 ^ 24) (hlen : codeLength s = code.length) :
    SyndromeMatchesStatus s := by
  obtain ⟨hnoErr, hgpErr, hcorr, hdbl, hoor⟩ := hv.syndrome_spec
  obtain ⟨hcpos, -⟩ := hv.cpos_spec
  have hzero := syn_eq_zero_iff hM
  rw [SyndromeMatchesStatus, hlen, hr]
  refine ⟨fun h => (hnoErr h).imp_left hzero.mpr, fun h => (hgpErr h).imp_left hzero.mpr, fun h => ?_,
    fun h => (hdbl h).imp_left (mt hzero.mp), fun h => ?_⟩
  · obtain ⟨hne, hle, hg⟩ := hcorr h
    obtain ⟨hpos, -⟩ := hcpos h
    simp only [verdictResult, hpos, syn_toNat hM]
    exact ⟨Nat.one_le_iff_ne_zero.mpr hne, trivial, hle, fun hm => hg.trans hm⟩
  · obtain ⟨hout, hg⟩ := hoor h
    exact ⟨(syn_toNat hM).symm ▸ hout, fun hm => hg.trans hm⟩

theorem payloadSize_of_classified (hlen : codeLength s = code.length) : PayloadSize s := by
  rw [PayloadSize, hlen, hr]
  refine ⟨fun _ => ?_, by simp [verdictResult, hv.st_ne], by simp [verdictResult, hv.st_ne]⟩
  rw [verdictResult, payload_length, hv.code_length]

theorem correctedOnlyInCorr_of_classified (hM : code.length < 2 ^ 24) : CorrectedOnlyInCorr s := by
  obtain ⟨hcpos, hcpos0⟩ := hv.cpos_spec
  rw [CorrectedOnlyInCorr, hr]
  by_cases h : v.st = .hCorr
  · obtain ⟨hpos, hne⟩ := hcpos h
    rw [verdictResult, hpos]
    exact iff_of_true (mt (syn_eq_zero_iff hM).mp hne) h
  · rw [verdictResult, hcpos0 h]
    exact iff_of_false (not_not.mpr rfl) h

/-- A state that holds the result of a class of its frame's code block has the invariant. -/
theorem invariant_of_classified (hfit : Fits s) (hinv : s.frame.inv = false) (hovf : s.frame.ovf = false)
    (hcode : code.length = if m then s.frame.len - 1 else s.frame.len)
    (hN : m = true → code.length + 1 = s.frame.len) : Invariant s := by
  have hM : code.length < 2 ^ 24 := by
    have hlt : s.frame.len < 2 ^ 24 := lt_of_le_of_lt hfit (nmax_lt s.params)
    rw [hcode]
    split <;> omega
  have hlen : codeLength s = code.length := by rw [hcode, codeLength, hr]; rfl
  exact {
    fits := hfit
    noneIsClear := by simp [NoneIsClear, hr, verdictResult, hv.st_ne]
    failureIsBare := by simp [FailureIsBare, hr, verdictResult, hv.st_ne]
    statusMatchesCommand := statusMatchesCommand_of_classified hv hr
    statusMatchesFlags := by simp [StatusMatchesFlags, hr, verdictResult, hv.st_ne, hinv, hovf]
    reportSize := reportSize_of_classified hv hr hN
    syndromeMatchesStatus := syndromeMatchesStatus_of_classified hv hr hM hlen
    payloadSize := payloadSize_of_classified hv hr hlen
    sumsBelow255 := by rw [SumsBelow255, hr]; exact ⟨Nat.zero_le _, Nat.zero_le _⟩
    correctedOnlyInCorr := correctedOnlyInCorr_of_classified hv hr hM }

end

theorem invariant_of_hammingResult {s : State} {m : Bit} (hfit : Fits s)
    (hr : s.result = hammingResult s.frame m) : Invariant s := by
  cases hinv : s.frame.inv with
  | true => exact invariant_of_failure hfit (hr.trans (hammingResult_of_inv hinv m)) (.inl ⟨rfl, hinv⟩)
  | false =>
    cases hovf : s.frame.ovf with
    | true =>
      exact invariant_of_failure hfit (hr.trans (hammingResult_of_ovf hinv hovf m)) (.inr (.inl ⟨rfl, hinv, hovf⟩))
    | false =>
      by_cases hfb : s.frame.fb = []
      · exact invariant_of_failure hfit
          (hr.trans (hammingResult_of_empty hinv hovf (congrArg List.length hfb) m))
          (.inr (.inr (.inl ⟨rfl, hinv, hovf, rfl⟩)))
      · obtain ⟨v, hv, hd⟩ := hammingDecode_classified s.frame.fb m
        exact invariant_of_classified hv ((hr.trans (hammingResult_of_clean ⟨hinv, hovf, hfb⟩ m)).trans hd) hfit hinv hovf
          (split_code_length _ _) (split_code_length_succ hfb)

/-! ### States that hold a Fletcher result (10_state.md R33, items 4, 5, 8 and 9) -/

/-- The accumulators are below 255 in their registers too. -/
theorem fletcherSums_le (fb : List Bit) : (fletcherSums fb).s1.toNat ≤ 254 ∧ (fletcherSums fb).s2.toNat ≤ 254 := by
  obtain ⟨h1, h2⟩ := sums_le (dataBytes (dataBits fb))
  rw [fletcherSums, BitVec.toNat_ofNat, BitVec.toNat_ofNat]
  omega

/-- CALC and RXCK, as RDS reads them, compare as the 16-bit registers do. -/
theorem calcView_eq_rxck_iff (r : Result) : calcView r = r.rxck.setWidth 24 ↔ calculated r = r.rxck := by
  rw [calcView]
  refine ⟨fun h => ?_, fun h => h ▸ rfl⟩
  have hnat := congrArg BitVec.toNat h
  rwa [BitVec.toNat_setWidth_of_le (by decide), BitVec.toNat_setWidth_of_le (by decide), BitVec.toNat_inj] at hnat

/-- A Fletcher decode ends in F_OK with the data bits and equal checksums, or in F_MISMATCH with no payload and
different ones. -/
theorem fletcherDecode_cases (fb : List Bit) :
    ((fletcherDecode fb).st = .fOk ∧ (fletcherDecode fb).pb = dataBits fb ∧
      calcView (fletcherDecode fb) = (fletcherDecode fb).rxck.setWidth 24) ∨
    ((fletcherDecode fb).st = .fMismatch ∧ (fletcherDecode fb).pb = [] ∧
      calcView (fletcherDecode fb) ≠ (fletcherDecode fb).rxck.setWidth 24) := by
  rw [Ne, calcView_eq_rxck_iff]
  by_cases h : calculatedChecksum fb = receivedChecksum fb
  · rw [fletcherDecode_of_match h]
    exact .inl ⟨rfl, rfl, (calculated_eq_rxck_iff fb).mpr h⟩
  · rw [fletcherDecode_of_mismatch h]
    exact .inr ⟨rfl, rfl, mt (calculated_eq_rxck_iff fb).mp h⟩

/-- The registers that do not depend on the comparison. -/
theorem fletcherDecode_fields (fb : List Bit) :
    (fletcherDecode fb).alg = true ∧ (fletcherDecode fb).mode = false ∧ (fletcherDecode fb).cpos = 0 ∧
    (fletcherDecode fb).er = [] ∧ (fletcherDecode fb).s1 = (fletcherSums fb).s1 ∧
    (fletcherDecode fb).s2 = (fletcherSums fb).s2 := by
  by_cases h : calculatedChecksum fb = receivedChecksum fb
  · rw [fletcherDecode_of_match h]
    exact ⟨rfl, rfl, rfl, rfl, rfl, rfl⟩
  · rw [fletcherDecode_of_mismatch h]
    exact ⟨rfl, rfl, rfl, rfl, rfl, rfl⟩

/-- A state that holds the comparison of the two checksums of its frame has the invariant. -/
theorem invariant_of_fletcherDecode {s : State} (hfit : Fits s) (hinv : s.frame.inv = false)
    (hovf : s.frame.ovf = false) (hr : s.result = fletcherDecode s.frame.fb) : Invariant s := by
  obtain ⟨halg, hmode, hcpos, her, hs1, hs2⟩ := fletcherDecode_fields s.frame.fb
  have hsums := fletcherSums_le s.frame.fb
  have hlen : (dataBits s.frame.fb).length = s.frame.len - 16 := by simp [dataBits, Frame.len]
  have hcases := fletcherDecode_cases s.frame.fb
  rw [← hs1, ← hs2] at hsums
  rw [← hr] at halg hmode hcpos her hsums hcases
  have hother : ∀ x ∉ [Status.fOk, .fMismatch], s.result.st ≠ x := by
    rintro _ hx rfl
    obtain ⟨hst, -⟩ | ⟨hst, -⟩ := hcases <;> exact hx (by simp [hst])
  exact {
    fits := hfit
    noneIsClear := by simp [NoneIsClear, hother]
    failureIsBare := by simp [FailureIsBare, hother]
    statusMatchesCommand := ⟨by simp [hother], fun _ => ⟨halg, hmode⟩, by simp [hother], fun _ => halg,
      by simp [hother], status_code_not_reserved _⟩
    statusMatchesFlags := by simp [StatusMatchesFlags, hother, hinv, hovf]
    reportSize := by simp [ReportSize, her, hother]
    syndromeMatchesStatus := by simp [SyndromeMatchesStatus, hother]
    payloadSize := by
      obtain ⟨hst, hpb, hcheck⟩ | ⟨hst, hpb, hcheck⟩ := hcases
      · simp [PayloadSize, hst, hpb, hlen, hcheck]
      · simp [PayloadSize, hst, hpb, hcheck]
    sumsBelow255 := hsums
    correctedOnlyInCorr := by simp [CorrectedOnlyInCorr, hcpos, hother] }

theorem invariant_of_fletcherResult {s : State} (hfit : Fits s) (hr : s.result = fletcherResult s.frame) :
    Invariant s := by
  cases hinv : s.frame.inv with
  | true => exact invariant_of_failure hfit (hr.trans (fletcherResult_of_inv hinv)) (.inl ⟨rfl, hinv⟩)
  | false =>
    cases hovf : s.frame.ovf with
    | true =>
      exact invariant_of_failure hfit (hr.trans (fletcherResult_of_ovf hinv hovf)) (.inr (.inl ⟨rfl, hinv, hovf⟩))
    | false =>
      obtain hlen | hlen := Nat.lt_or_ge s.frame.fb.length 16
      · exact invariant_of_failure hfit (hr.trans (fletcherResult_of_short hinv hovf hlen))
          (.inr (.inr (.inr ⟨rfl, hinv, hovf, rfl⟩)))
      · exact invariant_of_fletcherDecode hfit hinv hovf (hr.trans (fletcherResult_of_long hinv hovf hlen))

/-! ### Every step keeps the invariant -/

/-- A command leaves the block, clears its result, or writes the result of a decode of its frame. -/
theorem exec_keeps_invariant {i : Instr} {s t : State} (hs : Invariant s) (hfit : Fits t)
    (h : exec i s = .next t) : Invariant t := by
  obtain ⟨u, r, rfl, he⟩ := exec_cases h
  cases he with
  | keep | reject => exact hs.congr rfl rfl rfl
  | clear | mark => exact invariant_of_clear hfit rfl
  | push => exact invariant_of_clear hfit (by simp)
  | hamming => exact invariant_of_hammingResult hfit rfl
  | fletcher => exact invariant_of_fletcherResult hfit rfl

theorem perform_keeps_invariant {a : HostAction} {s t : State} (hs : Invariant s) (h : perform a s = .next t) :
    Invariant t := by
  have hfit : Fits t := perform_keeps_fits hs.fits h
  obtain ⟨-, -, hr⟩ | ⟨-, hf, hr, -⟩ | ⟨w, i, -, -, -, he⟩ := perform_cases h
  · exact invariant_of_clear hfit hr
  · exact hs.congr (perform_params h) hf hr
  · exact exec_keeps_invariant hs hfit he

/-- Settles O23: every action of the host keeps the invariant, by the lemma on what it leaves in the result. -/
theorem stepKeepsTheInvariant : Obligations.StepKeepsTheInvariant := fun _ _ =>
  step_keeps (P := Invariant) (fun _ _ hs => hs.congr rfl rfl rfl) fun _ _ _ => perform_keeps_invariant

end Sys2Proof.Machine

/-! SUPPORT. The other statements, on flipped bits of a valid SECDED frame (41_hamming.md section 8). -/

namespace Sys2Proof.Machine

/-! ### Valid frames and decodes of them -/

/-- DECH on a state that holds a whole frame writes the decode's result. -/
theorem exec_dech_of_cleanFrame {s : State} {fb : List Bit} {m : Bit} {r : Result} (hf : s.frame = cleanFrame fb)
    (hfb : fb ≠ []) (hr : hammingDecode fb m = r) : ∃ t : State, exec (.dech m) s = .next t ∧ t.result = r := by
  have hc : Clean s := by
    rw [Clean, hf]
    exact ⟨rfl, rfl, hfb⟩
  exact ⟨_, exec_dech_of_clean hc (by rw [hf]; exact hr), rfl⟩

theorem hammingResult_cleanFrame {fb : List Bit} (hfb : fb ≠ []) (m : Bit) :
    hammingResult (cleanFrame fb) m = hammingDecode fb m :=
  hammingResult_of_clean (s := State.reset.withFrame (cleanFrame fb)) ⟨rfl, rfl, hfb⟩ m

/-- A valid SECDED frame is not empty, and its syndrome and overall parity are 0. -/
theorem ValidSecded.spec {fb : List Bit} (h : ValidSecded fb) :
    fb ≠ [] ∧ syndrome (fb.take (fb.length - 1)) = 0 ∧ globalComputed fb = false := by
  have hfb : fb ≠ [] := by
    rintro rfl
    exact absurd h (by decide)
  obtain ⟨v, hv, hr⟩ := hammingDecode_classified fb true
  have hst : v.st = .hNoErr := by
    rw [ValidSecded, hammingResult_cleanFrame hfb, hr] at h
    exact h
  obtain ⟨hnoErr, -⟩ := hv.syndrome_spec
  exact ⟨hfb, hnoErr hst⟩

/-- The payload of a valid frame is that of its code block. -/
theorem ValidSecded.pb {fb : List Bit} (h : ValidSecded fb) :
    (hammingResult (cleanFrame fb) true).pb = payload (fb.take (fb.length - 1)) := by
  obtain ⟨hfb, hsyn, hgpc⟩ := h.spec
  rw [hammingResult_cleanFrame hfb, hammingDecode_secded hsyn hgpc (classifySecded_noErr _ _ _)]
  rfl

theorem flipBit_ne_nil {fb : List Bit} (h : fb ≠ []) (e : Nat) : flipBit fb e ≠ [] := by
  rw [← List.length_pos_iff, flipBit_length]
  exact List.length_pos_iff.mpr h

/-- The code block of a frame with a flipped bit is the code block with that bit flipped. -/
theorem codeBlock_flipBit (fb : List Bit) (e : Nat) :
    (flipBit fb e).take ((flipBit fb e).length - 1) = flipBit (fb.take (fb.length - 1)) e := by
  rw [flipBit_length, take_flipBit]

/-! ### One flip (41_hamming.md section 8, (b)) -/

/-- A flip in the code block: the syndrome is its position, and correcting it gives the code block back. -/
theorem hammingDecode_flip_code {fb : List Bit} {e : Nat} (h : ValidSecded fb) (h1 : 1 ≤ e) (he : e < fb.length) :
    ∃ r : Result, hammingDecode (flipBit fb e) true = r ∧ r.st = .hCorr ∧ r.cpos = BitVec.ofNat 24 e ∧
      r.er = [{ v := !bitAt fb e, pos := BitVec.ofNat 24 e }] ∧ r.pb = payload (fb.take (fb.length - 1)) := by
  obtain ⟨-, hsyn, hgpc⟩ := h.spec
  have hM : e ≤ (fb.take (fb.length - 1)).length := by
    rw [List.length_take]
    omega
  have hsyn' : syndrome ((flipBit fb e).take ((flipBit fb e).length - 1)) = e := by
    rw [codeBlock_flipBit, syndrome_flipBit h1 hM, hsyn, Nat.zero_xor]
  have hgpc' : globalComputed (flipBit fb e) = true := by
    rw [globalComputed_flipBit h1 he.le, hgpc]
    rfl
  have hM' : e ≤ ((flipBit fb e).take ((flipBit fb e).length - 1)).length := by
    rwa [codeBlock_flipBit, flipBit_length]
  have hbit : bitAt (flipBit (fb.take (fb.length - 1)) e) e = !bitAt fb e := by
    rw [bitAt_flipBit h1 hM, if_pos rfl, bitAt_take (by omega)]
  refine ⟨_, hammingDecode_secded hsyn' hgpc' (classifySecded_corr (Nat.ne_zero_of_lt h1) hM' _ _), rfl, rfl, ?_, ?_⟩
  · rw [codeBlock_flipBit, verdictCorr, entryAt, hbit]
  · rw [codeBlock_flipBit, verdictCorr, flipBit_flipBit]

/-- A flip of the global parity bit: the code block is the one sent. -/
theorem hammingDecode_flip_last {fb : List Bit} (h : ValidSecded fb) :
    ∃ r : Result, hammingDecode (flipBit fb fb.length) true = r ∧ r.st = .hGpErr ∧ r.cpos = 0 ∧
      r.er = [{ v := !bitAt fb fb.length, pos := BitVec.ofNat 24 fb.length }] ∧
      r.pb = payload (fb.take (fb.length - 1)) := by
  obtain ⟨hfb, hsyn, hgpc⟩ := h.spec
  have hN : 1 ≤ fb.length := List.length_pos_iff.mpr hfb
  have hcode : (flipBit fb fb.length).take ((flipBit fb fb.length).length - 1) = fb.take (fb.length - 1) := by
    rw [codeBlock_flipBit, flipBit_of_length_lt]
    rw [List.length_take]
    omega
  have hgpc' : globalComputed (flipBit fb fb.length) = true := by
    rw [globalComputed_flipBit hN le_rfl, hgpc]
    rfl
  refine ⟨_, hammingDecode_secded (hcode ▸ hsyn) hgpc' (classifySecded_gpErr _ _ _), rfl, rfl, ?_, ?_⟩
  · rw [verdictGpErr, flipBit_length, bitAt_flipBit hN le_rfl, if_pos rfl]
  · rw [verdictGpErr, hcode]

/-- Settles O42: a flip in the code block or of the global parity bit, each located by its class. -/
theorem singleFlipIsLocatedAndCorrected : Obligations.SingleFlipIsLocatedAndCorrected := by
  intro s fb e h _ h1 he hf
  obtain ⟨hfb, -, -⟩ := h.spec
  rw [h.pb]
  obtain hlt | rfl := Nat.lt_or_eq_of_le he
  · obtain ⟨r, hr, hst, hcpos, her, hpb⟩ := hammingDecode_flip_code h h1 hlt
    obtain ⟨t, ht, rfl⟩ := exec_dech_of_cleanFrame hf (flipBit_ne_nil hfb e) hr
    exact ⟨t, ht, her, hpb, fun _ => ⟨hst, hcpos⟩, fun heq => absurd heq hlt.ne⟩
  · obtain ⟨r, hr, hst, hcpos, her, hpb⟩ := hammingDecode_flip_last h
    obtain ⟨t, ht, rfl⟩ := exec_dech_of_cleanFrame hf (flipBit_ne_nil hfb _) hr
    exact ⟨t, ht, her, hpb, fun hlt => absurd rfl hlt.ne, fun _ => ⟨hst, hcpos⟩⟩

/-! ### Two flips (41_hamming.md section 8, (c)) -/

/-- Two flips in the code block are one of its candidate pairs. -/
theorem verdictDbl_er_pair {code : List Bit} {i j : Nat} (h1 : 1 ≤ i) (hlt : i < j) (hj : j ≤ code.length) (gp : Bit)
    (N : Nat) : ∃ k : Nat, (verdictDbl code gp N (i ^^^ j)).er[2 * k]? = some (entryAt code i) ∧
      (verdictDbl code gp N (i ^^^ j)).er[2 * k + 1]? = some (entryAt code j) := by
  obtain ⟨k, hi, hj'⟩ := exists_candidatePairs_getElem? h1 hlt hj
  obtain ⟨hki, -⟩ := List.getElem?_eq_some_iff.mp hi
  obtain ⟨hkj, -⟩ := List.getElem?_eq_some_iff.mp hj'
  exact ⟨k, (List.getElem?_append_left hki).trans hi, (List.getElem?_append_left hkj).trans hj'⟩

/-- A flip in the code block and one of the global parity bit are the additional pair, after all candidate pairs. -/
theorem verdictDbl_er_last {code : List Bit} {e : Nat} (h1 : 1 ≤ e) (he : e ≤ code.length) (gp : Bit) (N : Nat) :
    ∃ k : Nat, (verdictDbl code gp N e).er[2 * k]? = some (entryAt code e) ∧
      (verdictDbl code gp N e).er[2 * k + 1]? = some { v := gp, pos := BitVec.ofNat 24 N } := by
  refine ⟨(lowerPositions code.length e).length, ?_⟩
  rw [verdictDbl, additionalPair, if_pos ⟨h1, he⟩, ← candidatePairs_length]
  simp

/-- Flipping two different bits leaves the overall parity. -/
theorem globalComputed_flipBit_flipBit {f : List Bit} {i j : Nat} (hi1 : 1 ≤ i) (hi : i ≤ f.length) (hj1 : 1 ≤ j)
    (hj : j ≤ f.length) : globalComputed (flipBit (flipBit f i) j) = globalComputed f := by
  rw [globalComputed_flipBit hj1 (by rwa [flipBit_length]), globalComputed_flipBit hi1 hi, Bool.not_not]

theorem codeBlock_flipBit_flipBit (fb : List Bit) (i j : Nat) :
    (flipBit (flipBit fb i) j).take ((flipBit (flipBit fb i) j).length - 1) =
      flipBit (flipBit (fb.take (fb.length - 1)) i) j := by
  rw [codeBlock_flipBit, codeBlock_flipBit]

/-- Two flips in the code block: the syndrome is the XOR of the two positions. -/
theorem hammingDecode_flips_code {fb : List Bit} {i j : Nat} (h : ValidSecded fb) (h1 : 1 ≤ i) (hlt : i < j)
    (hj : j < fb.length) :
    ∃ r : Result, hammingDecode (flipBit (flipBit fb i) j) true = r ∧ r.st = .hDbl ∧ r.cpos = 0 ∧
      ∃ k : Nat, r.er[2 * k]? = some { v := !bitAt fb i, pos := BitVec.ofNat 24 i } ∧
        r.er[2 * k + 1]? = some { v := !bitAt fb j, pos := BitVec.ofNat 24 j } := by
  obtain ⟨-, hsyn, hgpc⟩ := h.spec
  have hcode := codeBlock_flipBit_flipBit fb i j
  obtain ⟨code, hdef⟩ : ∃ code, code = fb.take (fb.length - 1) := ⟨_, rfl⟩
  have hM : code.length = fb.length - 1 := by simp [hdef]
  have hi : i ≤ code.length := by omega
  have hj' : j ≤ (flipBit code i).length := by rw [flipBit_length]; omega
  rw [← hdef] at hcode hsyn
  have hsyn' : syndrome (flipBit (flipBit code i) j) = i ^^^ j := by
    rw [syndrome_flipBit (by omega) hj', syndrome_flipBit h1 hi, hsyn, Nat.zero_xor]
  have hgpc' : globalComputed (flipBit (flipBit fb i) j) = false :=
    (globalComputed_flipBit_flipBit h1 (by omega) (by omega) hj.le).trans hgpc
  have hbiti : bitAt (flipBit (flipBit code i) j) i = !bitAt fb i := by
    rw [bitAt_flipBit (by omega) hj', if_neg hlt.ne, bitAt_flipBit h1 hi, if_pos rfl, hdef, bitAt_take (by omega)]
  have hbitj : bitAt (flipBit (flipBit code i) j) j = !bitAt fb j := by
    rw [bitAt_flipBit (by omega) hj', if_pos rfl, bitAt_flipBit h1 hi, if_neg hlt.ne', hdef, bitAt_take (by omega)]
  have hne : i ^^^ j ≠ 0 := mt Nat.xor_eq_zero_iff.mp hlt.ne
  refine ⟨_, hammingDecode_secded (hcode ▸ hsyn') hgpc' (classifySecded_dbl hne _ _ _), rfl, rfl, ?_⟩
  rw [hcode, ← hbiti, ← hbitj]
  exact verdictDbl_er_pair h1 hlt (hj'.trans (by simp)) _ _

/-- A flip in the code block and one of the global parity bit: the syndrome is the position of the first. -/
theorem hammingDecode_flips_last {fb : List Bit} {i : Nat} (h : ValidSecded fb) (h1 : 1 ≤ i) (hi : i < fb.length) :
    ∃ r : Result, hammingDecode (flipBit (flipBit fb i) fb.length) true = r ∧ r.st = .hDbl ∧ r.cpos = 0 ∧
      ∃ k : Nat, r.er[2 * k]? = some { v := !bitAt fb i, pos := BitVec.ofNat 24 i } ∧
        r.er[2 * k + 1]? = some { v := !bitAt fb fb.length, pos := BitVec.ofNat 24 fb.length } := by
  obtain ⟨-, hsyn, hgpc⟩ := h.spec
  have hN : 1 ≤ fb.length := by omega
  have hcode := codeBlock_flipBit_flipBit fb i fb.length
  obtain ⟨code, hdef⟩ : ∃ code, code = fb.take (fb.length - 1) := ⟨_, rfl⟩
  have hM : code.length = fb.length - 1 := by simp [hdef]
  have hi' : i ≤ code.length := by omega
  rw [← hdef] at hcode hsyn
  rw [flipBit_of_length_lt (bits := flipBit code i) (by rw [flipBit_length]; omega)] at hcode
  have hsyn' : syndrome (flipBit code i) = i := by rw [syndrome_flipBit h1 hi', hsyn, Nat.zero_xor]
  have hgpc' : globalComputed (flipBit (flipBit fb i) fb.length) = false :=
    (globalComputed_flipBit_flipBit h1 hi.le hN le_rfl).trans hgpc
  have hbiti : bitAt (flipBit code i) i = !bitAt fb i := by
    rw [bitAt_flipBit h1 hi', if_pos rfl, hdef, bitAt_take (by omega)]
  have hlen : (flipBit (flipBit fb i) fb.length).length = fb.length := by rw [flipBit_length, flipBit_length]
  have hlast : bitAt (flipBit (flipBit fb i) fb.length) fb.length = !bitAt fb fb.length := by
    rw [bitAt_flipBit hN (by rw [flipBit_length]), if_pos rfl, bitAt_flipBit h1 hi.le, if_neg hi.ne']
  refine ⟨_, hammingDecode_secded (hcode ▸ hsyn') hgpc' (classifySecded_dbl (Nat.ne_zero_of_lt h1) _ _ _), rfl, rfl,
    ?_⟩
  rw [hcode, hlen, hlast, ← hbiti]
  exact verdictDbl_er_last h1 (by rwa [flipBit_length]) _ _

/-- Settles O43: both flips in the code block, or the higher one that of the global parity bit. -/
theorem doubleFlipIsDetectedWithItsPair : Obligations.DoubleFlipIsDetectedWithItsPair := by
  intro s fb e₁ e₂ h _ h1 hlt he hf
  obtain ⟨hfb, -, -⟩ := h.spec
  have hne := flipBit_ne_nil (flipBit_ne_nil hfb e₁) e₂
  obtain hin | rfl := Nat.lt_or_eq_of_le he
  · obtain ⟨r, hr, hst, hcpos, hpair⟩ := hammingDecode_flips_code h h1 hlt hin
    obtain ⟨t, ht, rfl⟩ := exec_dech_of_cleanFrame hf hne hr
    exact ⟨t, ht, hst, hcpos, hpair⟩
  · obtain ⟨r, hr, hst, hcpos, hpair⟩ := hammingDecode_flips_last h h1 hlt
    obtain ⟨t, ht, rfl⟩ := exec_dech_of_cleanFrame hf hne hr
    exact ⟨t, ht, hst, hcpos, hpair⟩

/-! ### Any number of flips (41_hamming.md section 8, (d)) -/

/-- The last position of a frame beside those of its code block. -/
theorem positions_succ (M : Nat) : positions (M + 1) = positions M ++ [M + 1] := by
  rw [positions, List.range'_concat, positions]
  simp [Nat.add_comm]

/-- Frames differ where their code blocks do, and at most at the last position beside. -/
theorem differing_eq_codeBlock {f g : List Bit} (hf : f ≠ []) (h : f.length = g.length) :
    differing f g = differing (f.take (f.length - 1)) (g.take (g.length - 1)) ++
      if bitAt f f.length != bitAt g f.length then [f.length] else [] := by
  obtain ⟨M, hM⟩ : ∃ M, f.length = M + 1 := ⟨f.length - 1, by have := List.length_pos_iff.mpr hf; omega⟩
  have hcode : ∀ i ∈ positions M, (bitAt (f.take M) i != bitAt (g.take M) i) = (bitAt f i != bitAt g i) := by
    intro i hi
    have hle := (mem_positions.mp hi).2
    rw [bitAt_take hle, bitAt_take hle]
  have hlen : (f.take M).length = M := by simp [hM]
  rw [differing, differing, ← h, hM, Nat.add_sub_cancel, hlen, List.filter_congr hcode, positions_succ,
    List.filter_append]
  by_cases hlast : (bitAt f (M + 1) != bitAt g (M + 1)) = true
  · rw [List.filter_singleton, if_pos hlast, hlast]
    rfl
  · rw [List.filter_singleton, if_neg hlast, Bool.eq_false_of_not_eq_true hlast]
    rfl

theorem eq_of_differing_eq_nil {f g : List Bit} (h : f.length = g.length) (hd : differing f g = []) : f = g := by
  rw [differing, List.filter_eq_nil_iff] at hd
  rw [← map_bitAt_positions f, ← map_bitAt_positions g, ← h]
  exact List.map_congr_left fun i hi => by simpa using hd i hi

/-- One position or none has an XOR in the code block. -/
theorem xorSum_le_of_length_le_one {l : List Nat} {M : Nat} (hlen : l.length ≤ 1) (h : ∀ i ∈ l, i ≤ M) :
    xorSum l ≤ M := by
  match l with
  | [] => exact Nat.zero_le M
  | [i] => simpa [xorSum] using h i

/-- One position, or two different ones, have an XOR that is not 0. -/
theorem xorSum_ne_zero {l : List Nat} (hpos : l ≠ []) (hlen : l.length ≤ 2) (hnodup : l.Nodup)
    (h : ∀ i ∈ l, 1 ≤ i) : xorSum l ≠ 0 := by
  match l with
  | [i] => simpa [xorSum, Nat.one_le_iff_ne_zero] using h i
  | [i, j] =>
    have hij : i ≠ j := by simpa using hnodup
    simpa [xorSum, Nat.xor_eq_zero_iff] using hij

/-- In mode 1 the overall parity decides between the classes of odd and of even errors. -/
theorem Classified.st_mem_of_secded {code : List Bit} {gp gpc : Bit} {N : Nat} {v : Verdict}
    (h : Classified code gp N true gpc v) :
    v.st ∈ if gpc then [Status.hCorr, .hGpErr, .hOor] else [Status.hNoErr, .hDbl] := by
  cases h with
  | noErr _ hg | gpErr _ _ hg | corr _ _ hg | oor _ hg | dbl _ _ hg =>
    subst hg
    simp [verdictNoErr, verdictGpErr, verdictCorr, verdictOor, verdictDbl]

section
variable {f g : List Bit} (h : ValidSecded f) (hlen : f.length = g.length)
include h hlen

/-- GPC of a frame counts its flips modulo 2. -/
theorem globalComputed_iff_distance : globalComputed g = true ↔ distance f g % 2 = 1 := by
  obtain ⟨-, -, hgpc⟩ := h.spec
  rw [← globalComputed_ne_iff hlen, hgpc]
  cases globalComputed g <;> decide

/-- The syndrome of a frame is the XOR of the flipped positions of its code block, which are all its flips but that of
the global parity bit. -/
theorem exists_flips : ∃ l : List Nat, syndrome (g.take (g.length - 1)) = xorSum l ∧ l.Nodup ∧
    (∀ i ∈ l, 1 ≤ i ∧ i ≤ (g.take (g.length - 1)).length) ∧
    l.length ≤ distance f g ∧ distance f g ≤ l.length + 1 := by
  obtain ⟨hf, hsyn, -⟩ := h.spec
  have hcode : (f.take (f.length - 1)).length = (g.take (g.length - 1)).length := by simp [hlen]
  refine ⟨differing (f.take (f.length - 1)) (g.take (g.length - 1)), ?_, (nodup_positions _).filter _, ?_, ?_⟩
  · rw [← syndrome_xor_syndrome hcode, hsyn, Nat.zero_xor]
  · intro i hi
    rw [← hcode]
    exact mem_positions.mp (List.mem_of_mem_filter hi)
  · rw [distance_eq_length_differing hlen, differing_eq_codeBlock hf hlen, List.length_append]
    split <;> simp

/-- One flip leaves the syndrome in the code block. -/
theorem three_le_distance (hodd : distance f g % 2 = 1)
    (hout : (g.take (g.length - 1)).length < syndrome (g.take (g.length - 1))) : 3 ≤ distance f g := by
  obtain ⟨l, hsyn, -, hmem, hle, -⟩ := exists_flips h hlen
  by_contra hlt
  have hin := xorSum_le_of_length_le_one (l := l) (by omega) fun i hi => (hmem i hi).2
  omega

/-- Two flips leave a syndrome that is not 0. -/
theorem four_le_distance (heven : ¬ distance f g % 2 = 1) (hzero : syndrome (g.take (g.length - 1)) = 0)
    (hne : g ≠ f) : 4 ≤ distance f g := by
  obtain ⟨l, hsyn, hnodup, hmem, hle, hge⟩ := exists_flips h hlen
  have hpos : distance f g ≠ 0 := fun h0 =>
    hne (eq_of_differing_eq_nil hlen (List.length_eq_zero_iff.mp (distance_eq_length_differing hlen ▸ h0))).symm
  by_contra hlt
  have hl : l ≠ [] := fun hnil => by
    rw [hnil, List.length_nil] at hge
    omega
  exact xorSum_ne_zero hl (by omega) hnodup (fun i hi => (hmem i hi).1) (hsyn.symm.trans hzero)

end

/-- Settles O44: GPC counts the flips modulo 2 and decides between the classes; the syndrome, the XOR of the flipped
positions of the code block, rules out one flip for H_OOR and two for H_NOERR. -/
theorem flipCountDecidesTheClass : Obligations.FlipCountDecidesTheClass := by
  intro s f g h _ hlen hf
  have hgb : g ≠ [] := by
    rw [← List.length_pos_iff, hlen]
    exact List.length_pos_iff.mpr h.spec.1
  obtain ⟨v, hv, hr⟩ := hammingDecode_classified g true
  obtain ⟨t, ht, hres⟩ := exec_dech_of_cleanFrame hf hgb hr
  have hst : t.result.st = v.st := by rw [hres]; rfl
  rw [Bool.true_and] at hv
  have hodd := globalComputed_iff_distance h hlen.symm
  have hmem := hv.st_mem_of_secded
  obtain ⟨hnoErr, -, -, -, hoor⟩ := hv.syndrome_spec
  refine ⟨t, ht, fun hd => ?_, fun hd => ?_, fun ho => ?_, fun hn hne => ?_⟩
  · rwa [hodd.mpr hd, if_pos rfl, ← hst] at hmem
  · rwa [if_neg (mt hodd.mp (by omega)), ← hst] at hmem
  · obtain ⟨hout, hg⟩ := hoor (hst ▸ ho)
    exact three_le_distance h hlen.symm (hodd.mp hg) hout
  · obtain ⟨hzero, hg⟩ := hnoErr (hst ▸ hn)
    exact four_le_distance h hlen.symm (mt hodd.mpr (by simp [hg])) hzero hne

end Sys2Proof.Machine

/-! SUPPORT. The other statements, on the Fletcher-16 verifier and on RDP and RDE: the checksum of a sent frame, what a
flipped bit does to the first accumulator, and what the checksum cannot see. -/

namespace Sys2Proof.Machine

/-! ### A frame as sent (42_fletcher.md section 3, round trip) -/

@[simp] theorem fieldBits_length (w v : Nat) : (fieldBits w v).length = w := by simp [fieldBits]

theorem dataBits_append_fieldBits (data : List Bit) (v : Nat) : dataBits (data ++ fieldBits 16 v) = data := by
  simp [dataBits]

/-- Position N − 15 + k of a sent frame is bit 15 − k of its field. -/
theorem bitAt_append_fieldBits (data : List Bit) {v k : Nat} (hk : k < 16) :
    bitAt (data ++ fieldBits 16 v) (data.length + 1 + k) = v.testBit (15 - k) := by
  rw [Nat.add_right_comm, bitAt_succ]
  simp [List.getD, fieldBits, hk]

/-- The received checksum of a sent frame is the field it was sent with. -/
theorem receivedChecksum_append_fieldBits (data : List Bit) {v : Nat} (hv : v < 2 ^ 16) :
    receivedChecksum (data ++ fieldBits 16 v) = v := by
  have hstart : (data ++ fieldBits 16 v).length - 15 = data.length + 1 := by
    rw [List.length_append, fieldBits_length]
    omega
  refine Nat.eq_of_testBit_eq fun j => ?_
  by_cases hj : j < 16
  · have hk : 15 - j < 16 := by omega
    have hbit := testBit_fieldValue (data ++ fieldBits 16 v) (data.length + 1) hk
    rw [bitAt_append_fieldBits data hk] at hbit
    have hexp : 15 - (15 - j) = j := by omega
    rw [receivedChecksum, hstart]
    rwa [hexp] at hbit
  · have hpow : 2 ^ 16 ≤ 2 ^ j := Nat.pow_le_pow_right (by decide) (Nat.le_of_not_lt hj)
    rw [Nat.testBit_lt_two_pow ((receivedChecksum_lt _).trans_le hpow),
      Nat.testBit_lt_two_pow (hv.trans_le hpow)]

/-- DECF on a state that holds a whole frame of at least 16 bits writes the decode's result. -/
theorem exec_decf_of_cleanFrame {s : State} {fb : List Bit} (hf : s.frame = cleanFrame fb) (hlen : 16 ≤ fb.length) :
    ∃ t : State, exec .decf s = .next t ∧ t.result = fletcherDecode fb := by
  exact ⟨_, exec_decf_of_result (by rw [hf]; exact fletcherResult_of_long rfl rfl hlen) rfl, rfl⟩

theorem checksum_lt (bytes : List Nat) : (sums bytes).s2 * 2 ^ 8 + (sums bytes).s1 < 2 ^ 16 := by
  obtain ⟨h1, h2⟩ := sums_le bytes
  omega

/-- Settles O49: the data bits and the field of the frame are those it was sent with, so the two checksums agree. -/
theorem fletcherRoundTrip : Obligations.FletcherRoundTrip := by
  intro s data a hf
  obtain ⟨t, ht, hr⟩ := exec_decf_of_cleanFrame hf (by simp)
  have hmatch : calculatedChecksum (data ++ fieldBits 16 (a.s2 * 2 ^ 8 + a.s1)) =
      receivedChecksum (data ++ fieldBits 16 (a.s2 * 2 ^ 8 + a.s1)) := by
    rw [receivedChecksum_append_fieldBits data (checksum_lt _), calculatedChecksum, dataBits_append_fieldBits]
  rw [fletcherDecode_of_match hmatch] at hr
  exact ⟨t, ht, by rw [hr], by rw [hr]; exact dataBits_append_fieldBits data _⟩

/-! ### One flipped bit (42_fletcher.md section 3, (b)) -/

/-- Changing a summand: what a sum gains is what the summand gains. -/
theorem sum_map_add_of_eq_off {l : List Nat} {a : Nat} (hl : l.Nodup) (ha : a ∈ l) {f g : Nat → Nat}
    (h : ∀ x ∈ l, x ≠ a → f x = g x) : (l.map f).sum + g a = (l.map g).sum + f a := by
  have herase : (l.erase a).map f = (l.erase a).map g := List.map_congr_left fun x hx =>
    h x (List.mem_of_mem_erase hx) fun hxa => hl.not_mem_erase (hxa ▸ hx)
  rw [← List.sum_map_erase f ha, ← List.sum_map_erase g ha, herase]
  omega

/-- A flipped bit outside a field leaves its value. -/
theorem fieldValue_flipBit_of_not_mem {bits : List Bit} {e a w : Nat} (h1 : 1 ≤ e) (h2 : e ≤ bits.length)
    (hout : ∀ k < w, a + k ≠ e) : fieldValue (flipBit bits e) a w = fieldValue bits a w := by
  refine congrArg List.sum (List.map_congr_left fun k hk => ?_)
  rw [bitAt_flipBit h1 h2, if_neg (hout k (List.mem_range.mp hk))]

/-- A flipped bit at place k of a field changes its value by the weight of the place. -/
theorem fieldValue_flipBit {bits : List Bit} {a k w : Nat} (h1 : 1 ≤ a + k) (h2 : a + k ≤ bits.length) (hk : k < w) :
    fieldValue (flipBit bits (a + k)) a w + (bitAt bits (a + k)).toNat * 2 ^ (w - 1 - k) =
      fieldValue bits a w + (!bitAt bits (a + k)).toNat * 2 ^ (w - 1 - k) := by
  have hoff : ∀ j ∈ List.range w, j ≠ k →
      (bitAt (flipBit bits (a + k)) (a + j)).toNat <<< (w - 1 - j) = (bitAt bits (a + j)).toNat <<< (w - 1 - j) := by
    intro j _ hj
    rw [bitAt_flipBit h1 h2, if_neg (by omega)]
  have hsum := sum_map_add_of_eq_off List.nodup_range (List.mem_range.mpr hk) hoff
  rw [bitAt_flipBit h1 h2, if_pos rfl, Nat.shiftLeft_eq, Nat.shiftLeft_eq] at hsum
  exact hsum

/-- A flipped data bit changes the sum of the bytes by a power of two below 2^8. -/
theorem exists_sum_dataBytes_flipBit {data : List Bit} {e : Nat} (h1 : 1 ≤ e) (h2 : e ≤ data.length) :
    ∃ j < 8, (dataBytes (flipBit data e)).sum + (bitAt data e).toNat * 2 ^ j =
      (dataBytes data).sum + (!bitAt data e).toNat * 2 ^ j := by
  obtain ⟨t, k, hk, rfl⟩ : ∃ t k, k < 8 ∧ e = 8 * t + 1 + k := ⟨(e - 1) / 8, (e - 1) % 8, by omega, by omega⟩
  have ht : t ∈ List.range ((data.length + 7) / 8) := List.mem_range.mpr (by omega)
  have hoff : ∀ u ∈ List.range ((data.length + 7) / 8), u ≠ t →
      fieldValue (flipBit data (8 * t + 1 + k)) (8 * u + 1) 8 = fieldValue data (8 * u + 1) 8 := fun u _ hu =>
    fieldValue_flipBit_of_not_mem h1 h2 fun k' hk' => by omega
  have hsum := sum_map_add_of_eq_off List.nodup_range ht hoff
  have hbyte := fieldValue_flipBit h1 h2 hk
  refine ⟨8 - 1 - k, by omega, ?_⟩
  rw [dataBytes, dataBytes, flipBit_length]
  omega

/-- A flipped data bit changes the first accumulator: no power of two below 2^8 is 0 modulo 255. -/
theorem sums_s1_dataBytes_flipBit {data : List Bit} {e : Nat} (h1 : 1 ≤ e) (h2 : e ≤ data.length) :
    (sums (dataBytes (flipBit data e))).s1 ≠ (sums (dataBytes data)).s1 := by
  obtain ⟨j, hj, hsum⟩ := exists_sum_dataBytes_flipBit h1 h2
  have hpos : 0 < 2 ^ j := Nat.two_pow_pos j
  have hle : 2 ^ j ≤ 2 ^ 7 := Nat.pow_le_pow_right (by decide) (Nat.le_of_lt_succ hj)
  rw [sums_s1_eq_sum_mod, sums_s1_eq_sum_mod]
  cases hbit : bitAt data e with
  | true =>
    simp only [hbit, Bool.not_true, Bool.toNat_true, Bool.toNat_false] at hsum
    omega
  | false =>
    simp only [hbit, Bool.not_false, Bool.toNat_true, Bool.toNat_false] at hsum
    omega

/-- Equal checksums have equal first accumulators, both being below 2^8. -/
theorem s1_eq_of_calculatedChecksum_eq {f g : List Bit} (h : calculatedChecksum f = calculatedChecksum g) :
    (sums (dataBytes (dataBits f))).s1 = (sums (dataBytes (dataBits g))).s1 := by
  obtain ⟨hf, -⟩ := sums_le (dataBytes (dataBits f))
  obtain ⟨hg, -⟩ := sums_le (dataBytes (dataBits g))
  simp only [calculatedChecksum] at h
  omega

/-- A valid Fletcher-16 frame has at least 16 bits, and its two checksums agree. -/
theorem ValidFletcher.spec {fb : List Bit} (h : ValidFletcher fb) :
    16 ≤ fb.length ∧ calculatedChecksum fb = receivedChecksum fb := by
  obtain hlen | hlen := Nat.lt_or_ge fb.length 16
  · rw [ValidFletcher, fletcherResult_of_short (f := cleanFrame fb) rfl rfl hlen] at h
    cases h
  · refine ⟨hlen, by_contra fun hne => ?_⟩
    rw [ValidFletcher, fletcherResult_of_long (f := cleanFrame fb) rfl rfl hlen,
      show (cleanFrame fb).fb = fb from rfl, fletcherDecode_of_mismatch hne] at h
    cases h

/-- A flipped bit of a valid frame makes its checksums differ: in the data it changes the calculated one alone, in the
field the received one alone. -/
theorem calculatedChecksum_flipBit_ne {fb : List Bit} {e : Nat} (h : ValidFletcher fb) (h1 : 1 ≤ e)
    (he : e ≤ fb.length) : calculatedChecksum (flipBit fb e) ≠ receivedChecksum (flipBit fb e) := by
  obtain ⟨hlen, hmatch⟩ := h.spec
  have hdata : dataBits (flipBit fb e) = flipBit (dataBits fb) e := by
    rw [dataBits, flipBit_length, take_flipBit, dataBits]
  have hD : (dataBits fb).length = fb.length - 16 := by simp [dataBits]
  obtain hin | hin := Nat.lt_or_ge (dataBits fb).length e
  · obtain ⟨k, hk, rfl⟩ : ∃ k < 16, e = fb.length - 15 + k := ⟨e - (fb.length - 15), by omega, by omega⟩
    have hcalc : calculatedChecksum (flipBit fb (fb.length - 15 + k)) = calculatedChecksum fb := by
      rw [calculatedChecksum, hdata, flipBit_of_length_lt hin]
      rfl
    have hbit : (receivedChecksum (flipBit fb (fb.length - 15 + k))).testBit (15 - k) ≠
        (receivedChecksum fb).testBit (15 - k) := by
      have hnew := testBit_fieldValue (flipBit fb (fb.length - 15 + k)) (fb.length - 15) hk
      have hold := testBit_fieldValue fb (fb.length - 15) hk
      rw [bitAt_flipBit h1 he, if_pos rfl] at hnew
      rw [receivedChecksum, receivedChecksum, flipBit_length, hnew, hold]
      exact Bool.not_ne_self _
    rw [hcalc, hmatch]
    exact fun heq => hbit (by rw [← heq])
  · have hrecv : receivedChecksum (flipBit fb e) = receivedChecksum fb := by
      rw [receivedChecksum, flipBit_length, receivedChecksum]
      exact fieldValue_flipBit_of_not_mem h1 he fun k _ => by omega
    rw [hrecv, ← hmatch]
    intro heq
    have hs1 := s1_eq_of_calculatedChecksum_eq heq
    rw [hdata] at hs1
    exact sums_s1_dataBytes_flipBit h1 hin hs1

/-- Settles O50: the checksums of the frame with the flip differ, so it ends in F_MISMATCH. -/
theorem fletcherSingleFlipIsDetected : Obligations.FletcherSingleFlipIsDetected := by
  intro s fb e h h1 he hf
  obtain ⟨hlen, -⟩ := h.spec
  obtain ⟨t, ht, hr⟩ := exec_decf_of_cleanFrame hf (by rwa [flipBit_length])
  rw [fletcherDecode_of_mismatch (calculatedChecksum_flipBit_ne h h1 he)] at hr
  exact ⟨t, ht, by rw [hr], by rw [hr]; rfl⟩

/-! ### What the checksum cannot see (42_fletcher.md section 3, (c) and (d)) -/

/-- 0 and 255 are one modulo 255. -/
theorem fletcherStep_zero_eq (a : Sums) : fletcherStep a 0 = fletcherStep a 255 := by
  simp [fletcherStep, fmod]

theorem sums_append (xs ys : List Nat) : sums (xs ++ ys) = ys.foldl fletcherStep (sums xs) := List.foldl_append

theorem sums_replicate_zero (k : Nat) : sums (List.replicate k 0) = { s1 := 0, s2 := 0 } := by
  induction k with
  | zero => rfl
  | succ k ih => exact ih

/-- Zero bits after the data read as the positions beyond it do. -/
theorem bitAt_append_replicate_false (data : List Bit) (n i : Nat) :
    bitAt (data ++ List.replicate n false) i = bitAt data i := by
  cases i with
  | zero => rfl
  | succ k =>
    rw [bitAt_succ, bitAt_succ, List.getD, List.getD, List.getElem?_append]
    split
    · rfl
    · next hout =>
      rw [List.getElem?_replicate, List.getElem?_eq_none (Nat.le_of_not_lt hout)]
      split <;> rfl

/-- Zero bits that fill the last byte leave the bytes. -/
theorem dataBytes_append_padding (data : List Bit) :
    dataBytes (data ++ List.replicate ((8 - data.length % 8) % 8) false) = dataBytes data := by
  have hlen : ((data ++ List.replicate ((8 - data.length % 8) % 8) false).length + 7) / 8 = (data.length + 7) / 8 := by
    rw [List.length_append, List.length_replicate]
    omega
  simp only [dataBytes, hlen, fieldValue, bitAt_append_replicate_false]

/-- No calculated checksum has a byte 255. -/
theorem ne_calculatedChecksum_of_byte {fb : List Bit} {r : Nat} (h : r % 2 ^ 8 = 255 ∨ r / 2 ^ 8 = 255) :
    calculatedChecksum fb ≠ r := by
  obtain ⟨h1, h2⟩ := sums_le (dataBytes (dataBits fb))
  simp only [calculatedChecksum]
  omega

/-- Settles O51: a step does the same with 0 and 255, zeros do not move the accumulators from 0, padding is read as
zeros anyway, and the accumulators never hold 255. -/
theorem fletcherBlindSpots : Obligations.FletcherBlindSpots := by
  refine ⟨fun xs ys => ?_, fun k xs => ?_, dataBytes_append_padding, fun s t hinv hovf hlen h hbyte => ?_⟩
  · rw [sums_append, sums_append (xs ++ [255]), sums_concat, sums_concat, fletcherStep_zero_eq]
  · rw [sums_append, sums_replicate_zero]
    rfl
  · rw [exec_decf_result h, fletcherResult_of_long hinv hovf hlen,
      fletcherDecode_of_mismatch (ne_calculatedChecksum_of_byte hbyte)]

/-! ### RDP and RDE (43_readout.md R117, R118) -/

/-- Settles O54: the payload bit at an index in range, and the rejection of every other index. -/
theorem rdpReadsThePayload : Obligations.RdpReadsThePayload := by
  refine ⟨fun k => encode_eq_ofNat .rdp rfl (by decide), fun s k => ⟨fun b hb => ?_, fun hout => ?_⟩⟩
  · have hbit : payloadBit s.result k = some b := hb
    rw [exec, execRdp, hbit, ← bitView_toNat]
    exact okData_eq_ofNat s _
  · exact exec_eq_of_indexOutOfRange (i := .rdp k) hout

/-- A report entry as a number is its value over its position. -/
theorem entryWord_toNat (e : ErrEntry) : (entryWord e).toNat = e.v.toNat * 2 ^ 24 + e.pos.toNat := by
  have hv := Bool.toNat_le e.v
  have hpos := e.pos.isLt
  simp only [entryWord, BitVec.toNat_add, BitVec.toNat_shiftLeft, BitVec.toNat_setWidth, BitVec.toNat_ofBool,
    Nat.shiftLeft_eq]
  omega

/-- RDE's response word. -/
theorem okWord_entryWord (e : ErrEntry) :
    okWord (entryWord e) = BitVec.ofNat 32 (e.v.toNat * 2 ^ 24 + e.pos.toNat) := by
  rw [← entryWord_toNat, ← okWord_toNat, BitVec.ofNat_toNat, BitVec.setWidth_eq]

/-- Settles O55: the report entry at an index in range, and the rejection of every other index. -/
theorem rdeReadsTheReport : Obligations.RdeReadsTheReport := by
  refine ⟨fun k => encode_eq_ofNat .rde rfl (by decide), fun s k => ⟨fun e he => ?_, fun hout => ?_⟩⟩
  · have hentry : reportEntry s.result k = some e := he
    rw [exec, execRde, hentry, ← okWord_entryWord]
    rfl
  · exact exec_eq_of_indexOutOfRange (i := .rde k) hout

end Sys2Proof.Machine

/-! SUPPORT. The other statements, on how a host reads an outcome: response words by their fields, and the source's
result shapes. -/

namespace Sys2Proof.Machine

/-! ### Reading a response (30_encoding.md R56; 60_exceptions.md R137) -/

theorem readResponse_okWord (d : BitVec 25) : readResponse (okWord d) = .data d := by
  have herr : (okWord d).getLsbD 31 = false := by simp [okWord]
  have hdata : (okWord d).extractLsb' 0 25 = d := by
    apply BitVec.eq_of_toNat_eq
    rw [BitVec.extractLsb'_toNat, okWord_toNat, Nat.shiftRight_zero, Nat.mod_eq_of_lt d.isLt]
  rw [readResponse, herr, hdata]
  rfl

theorem readResponse_rejectWord (c : CmdError) : readResponse (rejectWord c) = .rejected c.code := by
  cases c <;> decide

theorem errorOfCode_code (c : CmdError) : errorOfCode c.code = some c := by
  cases c <;> decide

/-- A rejection stands for an error without an algorithm, whatever result is held. -/
theorem sourceResponse_rejectWord (c : CmdError) (s : State) :
    sourceResponse (rejectWord c) s = some (.error none (some (errorName c))) := by
  rw [sourceResponse, readResponse_rejectWord]
  simp only [errorOfCode_code, Option.map_some]

/-- Data with a result of the ok shape. -/
theorem sourceResponse_of_ok {s : State} (h : sourceStatus s.result.st = some .ok) (d : BitVec 25) :
    sourceResponse (okWord d) s =
      some (.ok (algorithmOf s.result.alg) s.result.pb s.frame.len s.result.pb.length s.result.er) := by
  rw [sourceResponse, readResponse_okWord]
  simp only [h, Option.map_some]

/-- Data with a result of the error shape. -/
theorem sourceResponse_of_error {s : State} (h : sourceStatus s.result.st = some .error) (d : BitVec 25) :
    sourceResponse (okWord d) s =
      some (.error (some (algorithmOf s.result.alg)) (some (statusName s.result.st))) := by
  rw [sourceResponse, readResponse_okWord]
  simp only [h, Option.map_some]

/-- Data with no result held. -/
theorem sourceResponse_of_none {s : State} (h : s.result.st = .none) (d : BitVec 25) :
    sourceResponse (okWord d) s = none := by
  rw [sourceResponse, readResponse_okWord, h]
  rfl

/-! ### The result of a decode (10_state.md R21, R23) -/

@[simp] theorem hammingResult_alg (f : Frame) (m : Bit) : (hammingResult f m).alg = false := by
  simp [hammingResult, apply_ite Result.alg, Result.failure, hammingDecode]

@[simp] theorem fletcherResult_alg (f : Frame) : (fletcherResult f).alg = true := by
  obtain ⟨halg, -⟩ := fletcherDecode_fields f.fb
  simp [fletcherResult, apply_ite Result.alg, Result.failure, halg]

/-- The statuses of the ok shape (60_exceptions.md R137). -/
def okStatuses : List Status := [.hNoErr, .hGpErr, .hCorr, .hDbl, .hOor, .fOk]

/-- The statuses of the error shape (60_exceptions.md R137). -/
def errorStatuses : List Status := [.fMismatch, .eInvalid, .eOvf, .eEmpty, .eShort]

/-- A decode leaves one of those statuses, and the algorithm of its command in ALG. -/
theorem exec_decode_status {i : Instr} {s t : State} (hi : decodes i = true) (h : exec i s = .next t) :
    (t.result.st ∈ okStatuses ∨ t.result.st ∈ errorStatuses) ∧
      algorithmOf t.result.alg = if i = .decf then .fletcher16 else .hamming := by
  obtain ⟨m, rfl⟩ | rfl := decodes_eq_true_iff.mp hi
  · rw [exec_dech_result h, hammingResult_alg]
    exact ⟨(by decide : ∀ st ∈ [Status.eInvalid, .eOvf, .eEmpty] ++ [Status.hNoErr, .hGpErr, .hCorr, .hDbl, .hOor],
      st ∈ okStatuses ∨ st ∈ errorStatuses) _ (hammingResult_st_mem s m), rfl⟩
  · rw [exec_decf_result h, fletcherResult_alg]
    exact ⟨(by decide : ∀ st ∈ [Status.eInvalid, .eOvf, .eShort] ++ [Status.fOk, .fMismatch],
      st ∈ okStatuses ∨ st ∈ errorStatuses) _ (fletcherResult_st_mem s.frame), rfl⟩

/-- The codes of the ok shape. -/
theorem okStatuses_spec : ∀ st ∈ okStatuses, sourceStatus st = some .ok ∧ st.code.toNat ∈ [1, 2, 3, 4, 5, 8] := by
  decide

/-- The codes of the error shape, and the reasons named after them. -/
theorem errorStatuses_spec : ∀ st ∈ errorStatuses, sourceStatus st = some .error ∧
    st.code.toNat ∈ [1, 2, 3, 4, 5, 8, 9, 12, 13, 14, 15] ∧ st.code.toNat ∉ [1, 2, 3, 4, 5, 8] ∧
    (st.code.toNat = 9 → statusName st = "F_MISMATCH") ∧ (st.code.toNat = 12 → statusName st = "E_INVALID") ∧
    (st.code.toNat = 13 → statusName st = "E_OVF") ∧ (st.code.toNat = 14 → statusName st = "E_EMPTY") ∧
    (st.code.toNat = 15 → statusName st = "E_SHORT") := by
  decide

/-! ### What a word stands for (60_exceptions.md R124, R137) -/

/-- A word fails one of the three tests in their order, or executes and answers data. -/
theorem runCommand_cases (w : Word) (s : State) :
    (IllegalWord w ∧ runCommand w s = s.reject .illegal) ∨
    (¬ IllegalWord w ∧ ReservedWord w ∧ runCommand w s = s.reject .reserved) ∨
    (¬ IllegalWord w ∧ ¬ ReservedWord w ∧ OutOfRangeWord w s ∧ runCommand w s = s.reject .range) ∨
    (¬ IllegalWord w ∧ ¬ ReservedWord w ∧ ¬ OutOfRangeWord w s ∧
      ∃ (u : State) (d : BitVec 25), runCommand w s = u.ok d ∧ u.responses = s.responses) := by
  by_cases hi : IllegalWord w
  · exact .inl ⟨hi, runCommand_of_error (decode_of_illegalWord hi) s⟩
  by_cases hr : ReservedWord w
  · exact .inr (.inl ⟨hi, hr, runCommand_of_error (decode_of_reservedWord hr) s⟩)
  obtain ⟨i, hd⟩ := exists_decode_eq_ok hi hr
  have hrange : OutOfRangeWord w s ↔ IndexOutOfRange s i := outOfRangeWord_iff_of_decode hd s s.inputs
  by_cases ho : OutOfRangeWord w s
  · exact .inr (.inr (.inl ⟨hi, hr, ho, (runCommand_of_ok hd s).trans (exec_of_indexOutOfRange (hrange.mp ho))⟩))
  · obtain ⟨u, d, hu, hresp⟩ := exec_of_not_indexOutOfRange (decode_eq_ok_iff.mp hd).1 (mt hrange.mpr ho)
    exact .inr (.inr (.inr ⟨hi, hr, ho, u, d, (runCommand_of_ok hd s).trans hu, hresp⟩))

/-- Settles O57: a decode answers data and leaves a status of the ok or of the error shape, with the algorithm of its
command; a word that fails a test is answered with its rejection, any other with data. -/
theorem outcomesMapToTheSourcesShapes : Obligations.OutcomesMapToTheSourcesShapes := by
  refine ⟨fun i s hi => ?_, fun w s => ?_⟩
  · obtain ⟨t, -, ht, -⟩ := exec_answers i s
    obtain ⟨hst, halg⟩ := exec_decode_status hi ht
    have hframe : t.frame = s.frame := exec_decode_frame hi ht
    obtain hok | herr := hst
    · obtain ⟨hsource, hcode⟩ := okStatuses_spec _ hok
      have hx := sourceResponse_of_ok hsource ((statusView t.result).setWidth 25)
      rw [halg, hframe] at hx
      have hnot : ∀ n ∉ [1, 2, 3, 4, 5, 8], t.result.st.code.toNat ≠ n := by
        rintro _ hn rfl
        exact hn hcode
      refine ⟨t, _, _, ht, exec_decode_response hi ht, hx, List.mem_append_left [9, 12, 13, 14, 15] hcode,
        fun h => ?_, fun h => ?_, fun h => ?_, fun h => ?_, fun h => ?_, fun _ => ⟨rfl, rfl⟩⟩
      all_goals exact absurd h (hnot _ (by decide))
    · obtain ⟨hsource, hcode, hnot, h9, h12, h13, h14, h15⟩ := errorStatuses_spec _ herr
      have hx := sourceResponse_of_error hsource ((statusView t.result).setWidth 25)
      rw [halg] at hx
      exact ⟨t, _, _, ht, exec_decode_response hi ht, hx, hcode, fun h => ⟨rfl, by rw [h9 h]⟩,
        fun h => ⟨rfl, by rw [h12 h]⟩, fun h => ⟨rfl, by rw [h13 h]⟩, fun h => ⟨rfl, by rw [h14 h]⟩,
        fun h => ⟨rfl, by rw [h15 h]⟩, fun h => absurd h hnot⟩
  · obtain ⟨hi, hrun⟩ | ⟨hi, hr, hrun⟩ | ⟨hi, hr, ho, hrun⟩ | ⟨hi, hr, ho, u, d, hrun, hresp⟩ := runCommand_cases w s
    · exact ⟨_, _, hrun, rfl, fun _ => sourceResponse_rejectWord .illegal _, fun h => absurd hi h,
        fun h => absurd hi h, fun h => absurd hi h⟩
    · exact ⟨_, _, hrun, rfl, fun h => absurd h hi, fun _ _ => sourceResponse_rejectWord .reserved _,
        fun _ h => absurd hr h, fun _ h => absurd hr h⟩
    · exact ⟨_, _, hrun, rfl, fun h => absurd h hi, fun _ h => absurd h hr,
        fun _ _ _ => sourceResponse_rejectWord .range _, fun _ _ h => absurd ho h⟩
    · exact ⟨u.respond (okWord d), okWord d, hrun, by rw [respond_responses, hresp], fun h => absurd h hi,
        fun _ h => absurd h hr, fun _ _ h => absurd h ho, fun _ _ _ h => sourceResponse_of_none h d⟩

end Sys2Proof.Machine

/-! SUPPORT. The other statements, on the pins: a command in the block over any number of edges, and what the edges
are to the transaction level. -/

namespace Sys2Proof.Machine

/-! ### The handshake (70_reset_and_hazards.md R148) -/

/-- Without a reset the command in the block is answered after as many edges as were left, and both handshake outputs
are low until then. -/
theorem pinRun_work {is : List PinIn} (hrst : ∀ j ∈ is, j.rst = false) (p : PinState) (w : Word) (k : Nat) :
    (is.length < k →
      (pinRun is (p.work w k)).out false = { cmdReady := false, rspValid := false, rsp := none }) ∧
    (is.length = k → pinRun is (p.work w k) = p.work w 0) := by
  induction is generalizing k with
  | nil =>
    cases k with
    | zero => exact ⟨fun h => absurd h (Nat.lt_irrefl 0), fun _ => rfl⟩
    | succ k => exact ⟨fun _ => rfl, nofun⟩
  | cons j is ih =>
    obtain ⟨hj, his⟩ := List.forall_mem_cons.mp hrst
    cases k with
    | zero => exact ⟨nofun, nofun⟩
    | succ k =>
      have hedge : clockEdge j (p.work w (k + 1)) = p.work w k := by
        rw [clockEdge, hj]
        cases k <;> rfl
      obtain ⟨hlow, hanswer⟩ := ih his k
      rw [pinRun, hedge]
      exact ⟨fun h => hlow (Nat.lt_of_succ_lt_succ h), fun h => hanswer (Nat.succ.inj h)⟩

/-- Settles O58: an accepted command and one in the block are both `PinState.work`, which `pinRun_work` follows; every
other clause is one edge. -/
theorem pinHandshake : Obligations.PinHandshake := by
  rintro ⟨core, phase, accepted⟩ i hrst low
  refine ⟨?_, ?_, ?_, rfl⟩
  · rintro rfl
    refine ⟨rfl, fun hv => by simp [clockEdge, hrst, hv], fun hv is his => ?_⟩
    have hedge : clockEdge i { core := core, phase := .ready, accepted := accepted } =
        PinState.work { core := core, phase := .ready, accepted := accepted + 1 } i.cmd
          (PinState.latency { core := core, phase := .ready, accepted := accepted } i.cmd) := by
      simp [clockEdge, hrst, hv]
    rw [pinRun, hedge]
    exact pinRun_work his _ _ _
  · rintro w k rfl
    exact ⟨rfl, fun is his => pinRun_work his { core := core, phase := .ready, accepted := accepted } w (k + 1)⟩
  · rintro w r rfl
    refine ⟨rfl, fun hr => by simp [clockEdge, hrst, hr], fun hr => ?_⟩
    simp [clockEdge, hrst, hr, State.respond]

/-! ### Pins and transactions (00_scope.md R3; 70_reset_and_hazards.md R140) -/

/-- A command's effect and response, parted by the pin level, are what the transaction level does at once. -/
theorem runCommand_eq_effect (w : Word) (s : State) :
    runCommand w s = .next ((commandEffect w s).respond (commandResponse w s)) := by
  obtain ⟨t, r, ht, -, -, hresp⟩ := runCommand_answers w s
  have heffect : commandEffect w s = { t with responses := s.responses } := by simp [commandEffect, ht]
  have hresponse : commandResponse w s = r := by simp [commandResponse, ht, hresp]
  rw [ht, heffect, hresponse, State.respond, ← hresp]

theorem clearBlock_commandEffect (w : Word) (s : State) : (commandEffect w s).clearBlock = s.clearBlock := by
  obtain ⟨t, r, ht, hparams, hinputs, -⟩ := runCommand_answers w s
  simp [commandEffect, ht, State.clearBlock, State.withFrame, State.withResult, hparams, hinputs]

/-- The block of the transaction level while the pin level is in the middle of a command: the command has had its effect
at the pins only once its response is presented, at the transaction level only once it is taken. -/
def Simulates (b : State) (p : PinState) : Prop :=
  match p.phase with
  | .ready | .busy _ _ => b = p.core
  | .answering w r => p.core = commandEffect w b ∧ r = commandResponse w b

theorem simulates_work (p : PinState) (w : Word) (k : Nat) : Simulates p.core (p.work w k) := by
  cases k with
  | zero => exact ⟨rfl, rfl⟩
  | succ k => rfl

/-- A run that begins with an action of the host performs it and goes on. -/
theorem core_run_cons {a : HostAction} {b b' : State} {rest : List HostAction}
    (h : perform a (b.withInputs rest) = .next (b'.withInputs rest)) :
    Sys2Proof.core.run (a :: rest).length (b.withInputs (a :: rest)) =
      Sys2Proof.core.run rest.length (b'.withInputs rest) :=
  core_run_succ (s := b.withInputs (a :: rest)) ((step_of_cons (a := a) rfl).trans h) _

/-- Wherever the handshake stands, a reset of the simulating block is the reset of the pin level's. -/
theorem Simulates.clearBlock {b : State} {p : PinState} (h : Simulates b p) : b.clearBlock = p.core.clearBlock := by
  obtain ⟨core, phase, accepted⟩ := p
  cases phase with
  | ready | busy => exact congrArg State.clearBlock h
  | answering w r =>
    obtain ⟨heffect, -⟩ := h
    exact (clearBlock_commandEffect w b).symm.trans (congrArg State.clearBlock heffect.symm)

/-- An edge without an effect at the transaction level leaves the simulating block as it is. -/
theorem simulates_clockEdge_of_nil {b : State} {p : PinState} {i : PinIn} (h : Simulates b p)
    (hnil : edgeActions i p = []) : Simulates b (clockEdge i p) := by
  obtain ⟨core, phase, accepted⟩ := p
  cases hrst : i.rst with
  | true => cases phase <;> simp [edgeActions, hrst] at hnil
  | false =>
    cases phase with
    | ready =>
      obtain rfl : b = core := h
      rw [clockEdge, hrst]
      cases i.cmdValid with
      | true => exact simulates_work { core := b, phase := .ready, accepted := accepted + 1 } _ _
      | false => rfl
    | busy w k =>
      obtain rfl : b = core := h
      rw [clockEdge, hrst]
      exact simulates_work { core := b, phase := .busy w k, accepted := accepted } w k
    | answering w r =>
      have hready : i.rspReady = false := by simpa [edgeActions, hrst] using hnil
      rw [clockEdge, hrst, hready]
      exact h

/-- An edge that is an action of the host at the transaction level: performing the action simulates it. -/
theorem exists_simulates_clockEdge_of_cons {b : State} {p : PinState} {i : PinIn} (h : Simulates b p)
    (hne : edgeActions i p ≠ []) : ∃ (a : HostAction) (b' : State), edgeActions i p = [a] ∧
      Simulates b' (clockEdge i p) ∧
      ∀ rest : List HostAction, perform a (b.withInputs rest) = .next (b'.withInputs rest) := by
  cases hrst : i.rst with
  | true =>
    have hedge : clockEdge i p = { p with core := p.core.clearBlock, phase := .ready } := by simp [clockEdge, hrst]
    have hsim : Simulates b.clearBlock (clockEdge i p) := by
      rw [hedge]
      exact h.clearBlock
    obtain ⟨core, phase, accepted⟩ := p
    cases phase with
    | ready => exact ⟨.reset, _, by simp [edgeActions, hrst], hsim, fun _ => rfl⟩
    | busy w k => exact ⟨.resetDuring w, _, by simp [edgeActions, hrst], hsim, fun _ => rfl⟩
    | answering w r => exact ⟨.resetDuring w, _, by simp [edgeActions, hrst], hsim, fun _ => rfl⟩
  | false =>
    obtain ⟨core, phase, accepted⟩ := p
    cases phase with
    | ready | busy => simp [edgeActions, hrst] at hne
    | answering w r =>
      obtain ⟨rfl, rfl⟩ : core = commandEffect w b ∧ r = commandResponse w b := h
      have hready : i.rspReady = true := by simpa [edgeActions, hrst] using hne
      refine ⟨.command w, _, by simp [edgeActions, hrst, hready], ?_,
        runCommand_withInputs (runCommand_eq_effect w b)⟩
      rw [clockEdge, hrst, hready]
      rfl

/-- The transaction level does at once what an edge stands for, and then simulates the pin level again. -/
theorem exists_simulates_clockEdge {b : State} {p : PinState} (h : Simulates b p) (i : PinIn) :
    ∃ b' : State, Simulates b' (clockEdge i p) ∧ ∀ rest : List HostAction,
      Sys2Proof.core.run (edgeActions i p ++ rest).length (b.withInputs (edgeActions i p ++ rest)) =
        Sys2Proof.core.run rest.length (b'.withInputs rest) := by
  by_cases hnil : edgeActions i p = []
  · exact ⟨b, simulates_clockEdge_of_nil h hnil, fun rest => by rw [hnil, List.nil_append]⟩
  · obtain ⟨a, b', ha, hsim, hperform⟩ := exists_simulates_clockEdge_of_cons h hnil
    exact ⟨b', hsim, fun rest => by rw [ha]; exact core_run_cons (hperform rest)⟩

/-- Over any number of edges the transaction level runs to a block that simulates the pin level. -/
theorem exists_simulates_pinRun (is : List PinIn) {b : State} {p : PinState} (h : Simulates b p) :
    ∃ b' : State, Simulates b' (pinRun is p) ∧
      Sys2Proof.core.run (pinActions is p).length (b.withInputs (pinActions is p)) = .next (b'.withInputs []) := by
  induction is generalizing b p with
  | nil => exact ⟨b, h, rfl⟩
  | cons i is ih =>
    obtain ⟨b₁, h₁, hrun⟩ := exists_simulates_clockEdge h i
    obtain ⟨b', h', hrest⟩ := ih h₁
    exact ⟨b', h', (hrun _).trans hrest⟩

theorem simulates_iff_of_ready {b : State} {p : PinState} (h : p.phase = .ready) : Simulates b p ↔ b = p.core := by
  rw [Simulates, h]

/-- Settles O59: a ready block simulates itself, and after the edges the simulating block is the pin level's again. -/
theorem pinsRefineTransactions : Obligations.PinsRefineTransactions := by
  intro p is hstart hend
  obtain ⟨b', hsim, hrun⟩ := exists_simulates_pinRun is ((simulates_iff_of_ready hstart).mpr rfl)
  obtain rfl := (simulates_iff_of_ready hend).mp hsim
  exact hrun

end Sys2Proof.Machine
